-- ==== Sys2Proof/Word.lean ====
section
/-! DEFINITION. The word types of the block: a received byte, a position register, and the packed packet word of
`opcode_table.json`. -/

namespace Sys2Proof

/-- A byte: an 8-bit vector, bit 0 least significant (`00_scope.md` section 5; `20_memory.md` R35). -/
abbrev Byte := BitVec 8

/-- The contents of a position register: `W_POS` = 16 bits, two's complement (`10_state.md` R14, R15; log 6). -/
abbrev Pos := BitVec 16

/-- A packet packed into 24 bits, byte 0 in the least significant byte (`30_encoding.md` R50). The hardware never
holds it; the opcode table's matches and masks are over it. -/
abbrev PacketWord := BitVec 24

end Sys2Proof
end

