-- ==== Sys2Proof/Config.lean ====
section
/-! DEFINITION. What is fixed for this hardware (the parameter table of `00_scope.md` section 4) and what is left
open: the interrupt line's number, and the pins in a cycle the model's input list says nothing about. -/

namespace Sys2Proof

/-- `VIEWPORT_WIDTH` (`00_scope.md` R4). -/
def Config.viewportWidth : Int := 800

/-- `VIEWPORT_HEIGHT` (`00_scope.md` R4). -/
def Config.viewportHeight : Int := 600

/-- `CURSOR_WIDTH` (`00_scope.md` R4). -/
def Config.cursorWidth : Int := 16

/-- `CURSOR_HEIGHT` (`00_scope.md` R4). -/
def Config.cursorHeight : Int := 24

/-- `X_MAX = VIEWPORT_WIDTH − CURSOR_WIDTH` (`00_scope.md` R5). -/
def Config.xMax : Int := Config.viewportWidth - Config.cursorWidth

/-- `Y_MAX = VIEWPORT_HEIGHT − CURSOR_HEIGHT` (`00_scope.md` R5). -/
def Config.yMax : Int := Config.viewportHeight - Config.cursorHeight

/-- `PKT_LEN`: the bytes of a packet (`30_encoding.md` R46). -/
def Config.pktLen : Nat := 3

/-- `BYTE_W`: the bits of a byte event (`30_encoding.md` R47). -/
def Config.byteW : Nat := 8

/-- `W_POS`: the width of `X` and of `Y` (`00_scope.md` R6; the spec's decision D5; log 6). `Pos` has this width. -/
def Config.wPos : Nat := 16

/-- `X_RESET` (`10_state.md` R26; the spec's decision D6; log 7). -/
def Config.xReset : Int := 400

/-- `Y_RESET` (`10_state.md` R26; the spec's decision D6; log 7). -/
def Config.yReset : Int := 300

/-- `DELTA_SIGNED`: the delta bytes are read as signed (`90_conflicts.md` C1; the spec's decision D9; log 8). -/
def Config.deltaSigned : Bool := true

/-- `IRQ_ID`, open in the spec (`92_eei_decisions.md` D15): a free value, no body (log 14). -/
opaque Config.irqId : Nat

/-- The `rst` pin in the n-th cycle after the input list has run out: a free value (log 1). -/
opaque Config.freeRst : Nat → Bool

/-- The `rx_valid` pin in the n-th cycle after the input list has run out: a free value (log 1). -/
opaque Config.freeRxValid : Nat → Bool

/-- The `rx_data` pins in the n-th cycle after the input list has run out: a free value (log 1). -/
opaque Config.freeRxData : Nat → Byte

end Sys2Proof
end

