-- ==== Sys2Proof/Syntax.lean ====
section
/-! DEFINITION. The operations of the block (one constructor per row of `opcode_table.json`), the events that cause
them, and the forms that encode them. -/

namespace Sys2Proof

/-- The values of `CYC`. The register has 2 bits and never holds 3, so three values are the whole type
(`10_state.md` R12, R13; log 5). -/
inductive Phase where
  /-- 0: the next byte is a status byte. -/
  | phase0
  /-- 1: the next byte is a delta-X byte. -/
  | phase1
  /-- 2: the next byte is a delta-Y byte and completes the packet. -/
  | phase2
  deriving DecidableEq, Repr

/-- The input pins sampled at one rising edge of `clk` (`10_state.md` R22). -/
structure Pins where
  /-- `rst`: synchronous reset, active high. -/
  rst : Bool
  /-- `rx_valid`: a byte is presented in this cycle. -/
  rxValid : Bool
  /-- `rx_data[7:0]`. -/
  rxData : Byte
  deriving DecidableEq, Repr

/-- The input alphabet: exactly one event per step (`00_scope.md` R7). -/
inductive Event where
  | reset
  | byte (b : Byte)
  | idle
  deriving DecidableEq, Repr

/-- Which operation a slot's two status bits select (`30_encoding.md` R52, R53). -/
inductive SlotOp where
  | sub
  | add
  | ovf
  deriving DecidableEq, Repr

/-- The operations: one constructor per row of `opcode_table.json`, with the operands its encoding carries. -/
inductive Instr where
  /-- RX0: accept the status byte (`40_reassembly.md` R61). -/
  | rx0 (b : Byte)
  /-- RX1: accept the delta-X byte (`40_reassembly.md` R62). -/
  | rx1 (b : Byte)
  /-- RX2: accept the delta-Y byte and complete the packet (`40_reassembly.md` R63). -/
  | rx2 (b : Byte)
  /-- NOPI: the idle step (`40_reassembly.md` R67). -/
  | nopi
  /-- XSUB: subtract delta-X (`41_delta_decode.md` R75). -/
  | xsub (dx : Byte)
  /-- XADD: add delta-X (`41_delta_decode.md` R76). -/
  | xadd (dx : Byte)
  /-- XOVF: add half of delta-X (`41_delta_decode.md` R77). -/
  | xovf (dx : Byte)
  /-- YSUB: subtract delta-Y (`41_delta_decode.md` R78). -/
  | ysub (dy : Byte)
  /-- YADD: add delta-Y (`41_delta_decode.md` R79). -/
  | yadd (dy : Byte)
  /-- YOVF: subtract half of delta-Y (`41_delta_decode.md` R80). -/
  | yovf (dy : Byte)
  /-- ACCX: form the unclamped horizontal position (`42_accumulate_clamp.md` R85). -/
  | accx
  /-- ACCY: form the unclamped vertical position (`42_accumulate_clamp.md` R86). -/
  | accy
  /-- CLAMPX: store the horizontal position (`42_accumulate_clamp.md` R88). -/
  | clampx
  /-- CLAMPY: store the vertical position (`42_accumulate_clamp.md` R89). -/
  | clampy
  /-- BTN: derive the button flags from status bits 2:0 (`43_buttons.md` R95). -/
  | btn (low : BitVec 3)
  /-- RST: the reset step (`70_reset_and_hazards.md` R122). -/
  | rst
  deriving DecidableEq, Repr

/-- What encodes an operation: an event taken in a phase (rows of format BYTE, IDLE and RESET), or a packet word
(rows of format PKT). `30_encoding.md` R47, R50. -/
inductive Code where
  | event (cyc : Phase) (e : Event)
  | packet (p : PacketWord)
  deriving DecidableEq, Repr

/-- The raw form of a code: a number of bits and their value, numbered as `opcode_table.json` numbers them. -/
structure RawCode where
  nbits : Nat
  value : Nat
  deriving DecidableEq, Repr

end Sys2Proof
end

