-- ==== Sys2Proof/WellFormed.lean ====
section
/-! DEFINITION. What is well formed. Every operation is, whatever its operands ("No encoding is illegal, none is
reserved", `30_encoding.md` R56): the operand types have exactly the encodings' widths. What can be ill formed is a
raw string of bits: its length, and a value that its length cannot hold. -/

namespace Sys2Proof

/-- Well-formedness of an operation, one arm per constructor so that a row cannot be forgotten (`30_encoding.md`
R56; `00_scope.md` R8: all operand values are legal). -/
def Instr.wellFormed : Instr → Bool
  | .rx0 _ => true
  | .rx1 _ => true
  | .rx2 _ => true
  | .nopi => true
  | .xsub _ => true
  | .xadd _ => true
  | .xovf _ => true
  | .ysub _ => true
  | .yadd _ => true
  | .yovf _ => true
  | .accx => true
  | .accy => true
  | .clampx => true
  | .clampy => true
  | .btn _ => true
  | .rst => true

/-- A raw code's length: no bits (the Idle event carries none), one byte event (R47), or a packet (R46, R50). -/
def RawCode.lengthOk (r : RawCode) : Bool :=
  r.nbits == 0 || r.nbits == Config.byteW || r.nbits == Config.byteW * Config.pktLen

/-- A raw code's value fits its length. -/
def RawCode.valueOk (r : RawCode) : Bool :=
  decide (r.value < 2 ^ r.nbits)

/-- Well-formedness of a raw code. -/
def RawCode.wellFormed (r : RawCode) : Bool :=
  r.lengthOk && r.valueOk

end Sys2Proof
end

