-- ==== Sys2Proof/Decode.lean ====
section
/-! DEFINITION. From pins to an event, from an event and the phase to an operation, from a packet word to the bundle
of operations it selects; then the encoder. Every byte value is accepted in every phase and every packet word is a
packet (`30_encoding.md` R55, R56), so only a raw string of a wrong length or an oversized value is rejected. -/

namespace Sys2Proof

/-! ## Pins and events -/

/-- The event of a cycle (`60_exceptions.md` R103): `Reset` if `rst`, else `Byte` if `rx_valid`, else `Idle`. -/
def Pins.event (p : Pins) : Event :=
  if p.rst then .reset else if p.rxValid then .byte p.rxData else .idle

/-- The operation an event performs in a phase (`30_encoding.md` R47, R55; the opcode map of its section 3). -/
def decodeEvent : Phase → Event → Instr
  | _, .reset => .rst
  | _, .idle => .nopi
  | .phase0, .byte b => .rx0 b
  | .phase1, .byte b => .rx1 b
  | .phase2, .byte b => .rx2 b

/-! ## The status byte's fields (`30_encoding.md` R48) -/

/-- `YO`, Y-overflow: bit 7. -/
def statusYO (s : Byte) : Bool := s.getLsbD 7

/-- `XO`, X-overflow: bit 6. -/
def statusXO (s : Byte) : Bool := s.getLsbD 6

/-- `YS`, Y-sign: bit 5. -/
def statusYS (s : Byte) : Bool := s.getLsbD 5

/-- `XS`, X-sign: bit 4. -/
def statusXS (s : Byte) : Bool := s.getLsbD 4

/-- `MB`, `RB`, `LB`: bits 2:0, the inverted button flags. Bit 3, `A1`, is read by nothing. -/
def statusButtons (s : Byte) : BitVec 3 := s.extractLsb' 0 3

/-- X-slot selection (`30_encoding.md` R52). -/
def xSelect (s : Byte) : SlotOp :=
  if statusXO s then .ovf else if statusXS s then .add else .sub

/-- Y-slot selection (`30_encoding.md` R53). -/
def ySelect (s : Byte) : SlotOp :=
  if statusYO s then .ovf else if statusYS s then .add else .sub

/-! ## The packet word (`30_encoding.md` R50) -/

/-- Byte 0, the status byte: `P[7:0]`. -/
def packetStatus (p : PacketWord) : Byte := p.extractLsb' 0 8

/-- Byte 1, `DX`: `P[15:8]`. -/
def packetDX (p : PacketWord) : Byte := p.extractLsb' 8 8

/-- Byte 2, `DY`: `P[23:16]`. -/
def packetDY (p : PacketWord) : Byte := p.extractLsb' 16 8

/-- The packet word of three bytes in order of arrival. -/
def packPacket (status dx dy : Byte) : PacketWord :=
  (dy.setWidth 24 <<< 16) ||| (dx.setWidth 24 <<< 8) ||| status.setWidth 24

/-- The X-slot operation of a packet, with its operand. -/
def decodeXSlot (p : PacketWord) : Instr :=
  match xSelect (packetStatus p) with
  | .sub => .xsub (packetDX p)
  | .add => .xadd (packetDX p)
  | .ovf => .xovf (packetDX p)

/-- The Y-slot operation of a packet, with its operand. -/
def decodeYSlot (p : PacketWord) : Instr :=
  match ySelect (packetStatus p) with
  | .sub => .ysub (packetDY p)
  | .add => .yadd (packetDY p)
  | .ovf => .yovf (packetDY p)

/-- The bundle a packet selects, in the order of `40_reassembly.md` R60 (`30_encoding.md` R52, R53, R54; log 12). -/
def decodePacket (p : PacketWord) : List Instr :=
  [decodeXSlot p, decodeYSlot p, .accx, .accy, .clampx, .clampy, .btn (statusButtons (packetStatus p))]

/-- The operations a code selects. Total, and never empty: nothing is reserved (`30_encoding.md` R56). -/
def decode : Code → List Instr
  | .event c e => [decodeEvent c e]
  | .packet p => decodePacket p

/-! ## Raw codes -/

/-- Why a raw code is rejected. -/
inductive DecodeError where
  /-- Its length is neither that of an Idle event, nor of a byte event, nor of a packet. -/
  | badLength (nbits : Nat)
  /-- Its value has a bit above its length. -/
  | badValue (value : Nat)
  deriving DecidableEq, Repr

/-- The code a raw string of bits stands for in a phase: no bits is the Idle event, 8 bits a Byte event, 24 bits a
packet. (A Reset carries no bits and is told from Idle by the `rst` pin alone, so no raw code stands for it: log 12.) -/
def RawCode.toCode (c : Phase) (r : RawCode) : Except DecodeError Code :=
  if !r.lengthOk then .error (.badLength r.nbits)
  else if !r.valueOk then .error (.badValue r.value)
  else if r.nbits == 0 then .ok (.event c .idle)
  else if r.nbits == Config.byteW then .ok (.event c (.byte (BitVec.ofNat 8 r.value)))
  else .ok (.packet (BitVec.ofNat 24 r.value))

/-- The operations a raw string of bits selects in a phase, or the name of what is wrong with it. -/
def decodeRaw (c : Phase) (r : RawCode) : Except DecodeError (List Instr) :=
  match r.toCode c with
  | .error e => .error e
  | .ok code => .ok (decode code)

/-- The one member of a packet's bundle that stands for it where a single operation is asked for: the slot operation
of the highest selecting bit that is set, and XSUB where none is (log 12). -/
def packetRepresentative (p : PacketWord) : Instr :=
  let s := packetStatus p
  if statusYO s then decodeYSlot p
  else if statusXO s then decodeXSlot p
  else if statusYS s then decodeYSlot p
  else decodeXSlot p

/-- The operation the decoder reads from an instruction of the opcode table, by its bits (log 12): 8 bits are a byte
taken in the phase after reset, 24 bits a packet, no bits the idle event; any other length is refused. -/
def decodeTableWord (nbits w : Nat) : Option Instr :=
  match RawCode.toCode .phase0 ⟨nbits, w⟩ with
  | .error _ => none
  | .ok (.event c e) => some (decodeEvent c e)
  | .ok (.packet p) => some (packetRepresentative p)

/-! ## The encoder -/

/-- The code of an operation, from the opcode map of `30_encoding.md` section 3. Bits an operation does not read are
0, and an event no phase is read for is given phase 0 (log 13). -/
def encode : Instr → Code
  | .rx0 b => .event .phase0 (.byte b)
  | .rx1 b => .event .phase1 (.byte b)
  | .rx2 b => .event .phase2 (.byte b)
  | .nopi => .event .phase0 .idle
  | .rst => .event .phase0 .reset
  | .xsub dx => .packet (packPacket 0x00#8 dx 0x00#8)
  | .xadd dx => .packet (packPacket 0x10#8 dx 0x00#8)
  | .xovf dx => .packet (packPacket 0x40#8 dx 0x00#8)
  | .ysub dy => .packet (packPacket 0x00#8 0x00#8 dy)
  | .yadd dy => .packet (packPacket 0x20#8 0x00#8 dy)
  | .yovf dy => .packet (packPacket 0x80#8 0x00#8 dy)
  | .accx => .packet (packPacket 0x00#8 0x00#8 0x00#8)
  | .accy => .packet (packPacket 0x00#8 0x00#8 0x00#8)
  | .clampx => .packet (packPacket 0x00#8 0x00#8 0x00#8)
  | .clampy => .packet (packPacket 0x00#8 0x00#8 0x00#8)
  | .btn low => .packet (packPacket (low.setWidth 8) 0x00#8 0x00#8)

/-- The raw bits of an operation's code, as the table numbers them; `none` for RST, which has no bits of its own and
is not Idle (log 12). -/
def encodeRaw (i : Instr) : Option RawCode :=
  match encode i with
  | .event _ (.byte b) => some ⟨8, b.toNat⟩
  | .event _ .idle => some ⟨0, 0⟩
  | .event _ .reset => none
  | .packet p => some ⟨24, p.toNat⟩

/-! ## The opcode table's matches and masks -/

/-- A row's match and mask over the packet word (`opcode_table.json`; `30_encoding.md` R52, R53, R54); `none` for a
row that is selected by an event and not by a packet. -/
def packetRow : Instr → Option (PacketWord × PacketWord)
  | .xsub _ => some (0x000000#24, 0x000050#24)
  | .xadd _ => some (0x000010#24, 0x000050#24)
  | .xovf _ => some (0x000040#24, 0x000040#24)
  | .ysub _ => some (0x000000#24, 0x0000A0#24)
  | .yadd _ => some (0x000020#24, 0x0000A0#24)
  | .yovf _ => some (0x000080#24, 0x000080#24)
  | .accx => some (0x000000#24, 0x000000#24)
  | .accy => some (0x000000#24, 0x000000#24)
  | .clampx => some (0x000000#24, 0x000000#24)
  | .clampy => some (0x000000#24, 0x000000#24)
  | .btn _ => some (0x000000#24, 0x000000#24)
  | .rx0 _ => none
  | .rx1 _ => none
  | .rx2 _ => none
  | .nopi => none
  | .rst => none

/-- The packet's operand fields are those the operation carries (`30_encoding.md` R48, R49, R50). -/
def packetOperandsAre (p : PacketWord) : Instr → Bool
  | .xsub dx => packetDX p == dx
  | .xadd dx => packetDX p == dx
  | .xovf dx => packetDX p == dx
  | .ysub dy => packetDY p == dy
  | .yadd dy => packetDY p == dy
  | .yovf dy => packetDY p == dy
  | .btn low => statusButtons (packetStatus p) == low
  | .accx => true
  | .accy => true
  | .clampx => true
  | .clampy => true
  | .rx0 _ => false
  | .rx1 _ => false
  | .rx2 _ => false
  | .nopi => false
  | .rst => false

/-- A packet word falls under an operation's row of the table, operands included. -/
def packetMatchesRow (p : PacketWord) (i : Instr) : Bool :=
  match packetRow i with
  | none => false
  | some (m, k) => (p &&& k == m) && packetOperandsAre p i

/-! ## The phase as a number -/

/-- The phase after one more byte: `(CYC + 1) mod 3` (`10_state.md` R12). -/
def Phase.next : Phase → Phase
  | .phase0 => .phase1
  | .phase1 => .phase2
  | .phase2 => .phase0

/-- The 2-bit pattern of `CYC` (`10_state.md` R12, R13). -/
def Phase.toBits : Phase → BitVec 2
  | .phase0 => 0#2
  | .phase1 => 1#2
  | .phase2 => 2#2

/-- The number of bytes of the current packet already stored, equally the index of the next entry (`10_state.md`
R12). -/
def Phase.index (c : Phase) : Nat := c.toBits.toNat

end Sys2Proof
end

