-- ==== Sys2Proof/Machine/Flags.lean ====
section
/-! DEFINITION. The flags of the block: the three button flags. (`EOI`, the other flag register, is set and cleared
in Ops.lean; no operation sets a condition code: `10_state.md` section 4.) -/

namespace Sys2Proof.Machine

/-- The button flags of status bits 2:0: pressed exactly where the bit is clear (`43_buttons.md` R95, R97). -/
def buttonFlags (low : BitVec 3) : BitVec 3 := ~~~low

/-- `BTN[0]`: left (`10_state.md` R18). -/
def leftFlag (btn : BitVec 3) : Bool := btn.getLsbD 0

/-- `BTN[1]`: right (`10_state.md` R18). -/
def rightFlag (btn : BitVec 3) : Bool := btn.getLsbD 1

/-- `BTN[2]`: middle (`10_state.md` R18). -/
def middleFlag (btn : BitVec 3) : Bool := btn.getLsbD 2

end Sys2Proof.Machine
end

