-- ==== Sys2Proof/Machine/Operands.lean ====
section
/-! DEFINITION. The arithmetic of the block, all of it (`42_accumulate_clamp.md` R92): readings of a byte as a
number, halving, and the clamp. -/

namespace Sys2Proof.Machine

/-- `zext_8`: the integer in [0, 255] with the byte's binary pattern (`00_scope.md` section 5). -/
def zext8 (v : Byte) : Int := (v.toNat : Int)

/-- `sext_8`: the integer in [−128, 127] whose two's complement pattern is the byte (`00_scope.md` section 5;
log 17). -/
def sext8 (v : Byte) : Int :=
  if v.getLsbD 7 then zext8 v - 256 else zext8 v

/-- The number a delta byte stands for: `sext_8`, since `DELTA_SIGNED` is true (`30_encoding.md` R51;
`90_conflicts.md` C1; log 8). -/
def delta (v : Byte) : Int :=
  if Config.deltaSigned then sext8 v else zext8 v

/-- `tdiv2`: division by 2 truncating toward zero (`41_delta_decode.md` R72). -/
def tdiv2 (n : Int) : Int :=
  if 0 ≤ n then n / 2 else -((-n) / 2)

/-- `clamp(n, lo, hi)` (`42_accumulate_clamp.md` R87). -/
def clamp (n lo hi : Int) : Int :=
  if n < lo then lo else if n > hi then hi else n

end Sys2Proof.Machine
end

