-- ==== Sys2Proof/Machine/State.lean ====
section
/-! DEFINITION. The state of the block (`10_state.md` R10), the reasons a step could stop, and the state after reset. -/

namespace Sys2Proof.Machine

/-- The packet buffer: "a file of three 8-bit registers" indexed by the phase (`10_state.md` R11; log 15). -/
@[ext]
structure Buf where
  /-- `BUF[0]`: the status byte. -/
  b0 : Byte
  /-- `BUF[1]`: the raw delta-X. -/
  b1 : Byte
  /-- `BUF[2]`: the raw delta-Y. -/
  b2 : Byte
  deriving DecidableEq, Repr

/-- The wires of a packet completion (`10_state.md` R24; `41_delta_decode.md` section 1): integers, for no sum of
the block wraps (`42_accumulate_clamp.md` R90). The MODEL's own field (log 3). -/
@[ext]
structure Wires where
  /-- The signed horizontal step out of the X slot. -/
  sx : Int
  /-- The signed vertical step out of the Y slot. -/
  sy : Int
  /-- The unclamped horizontal position. -/
  xn : Int
  /-- The unclamped vertical position. -/
  yn : Int
  deriving DecidableEq, Repr

/-- The wires between steps: nothing survives on them (`10_state.md` R24; log 3). -/
def Wires.idle : Wires := ⟨0, 0, 0, 0⟩

/-- The state. The first six fields are all the state the spec gives the block (`10_state.md` R10). -/
@[ext]
structure State where
  /-- `CYC` (`10_state.md` R12). -/
  cyc : Phase
  /-- `BUF[0..2]` (`10_state.md` R11). -/
  buf : Buf
  /-- `X` (`10_state.md` R14). -/
  x : Pos
  /-- `Y` (`10_state.md` R15). -/
  y : Pos
  /-- `BTN`, bit 0 left, bit 1 right, bit 2 middle, 1 = pressed (`10_state.md` R18). -/
  btn : BitVec 3
  /-- `EOI` (`10_state.md` R20). -/
  eoi : Bool
  /-- The MODEL's own: the wires of the completion in progress, idle between steps (log 3). -/
  wires : Wires
  /-- The MODEL's own: the pins of the coming cycles, next first (log 1). -/
  input : List Pins
  /-- The MODEL's own: how many free pin samples have been drawn after the list ran out (log 1). -/
  drawn : Nat
  deriving DecidableEq, Repr

/-- There is no fault in the block, so there is no reason for one: "There is no fault, no stuck state, no refusal
and no trap inside the block" (`00_scope.md` R8; `60_exceptions.md` R100; log 16). No one raises it; safe. -/
inductive Fault where
  deriving DecidableEq, Repr

/-- The reasons an instruction could be refused. -/
inductive Refusal where
  /-- The instruction has no meaning in this model yet. Raised by no arm: every row has its meaning. Safe. -/
  | notModelled (mnemonic : String)
  deriving DecidableEq, Repr

/-- The state right after a Reset step (`10_state.md` R26; `70_reset_and_hazards.md` R122; log 7), with nothing on
the wires and no pins listed (log 1, log 3). -/
def State.reset : State where
  cyc := .phase0
  buf := ⟨0x00#8, 0x00#8, 0x00#8⟩
  x := BitVec.ofInt 16 Config.xReset
  y := BitVec.ofInt 16 Config.yReset
  btn := 0b000#3
  eoi := false
  wires := Wires.idle
  input := []
  drawn := 0

end Sys2Proof.Machine
end

