-- ==== Sys2Proof/Machine/Ops.lean ====
section
/-! DEFINITION. The named operations over the state: one accessor pair per register, accepting a byte and signalling
its end (what the block has for taking an exception and returning from one: `60_exceptions.md` R105, R106), the pins
of a cycle, and the output ports. -/

namespace Sys2Proof.Machine

/-! ## Sequencing -/

/-- Do one thing, and go on with the next if it answered a state. -/
def seq (o : Host.Outcome State Fault Refusal) (k : State → Host.Outcome State Fault Refusal) :
    Host.Outcome State Fault Refusal :=
  match o with
  | .next s => k s
  | .fault r => .fault r
  | .refused r => .refused r

/-! ## Registers: every read and write of a register goes through these -/

/-- `BUF[i]` (`20_memory.md` R30, R32). -/
def Buf.read (b : Buf) : Phase → Byte
  | .phase0 => b.b0
  | .phase1 => b.b1
  | .phase2 => b.b2

/-- `BUF[i] <- v`: one whole byte, no other entry (`20_memory.md` R31). -/
def Buf.write (b : Buf) (v : Byte) : Phase → Buf
  | .phase0 => { b with b0 := v }
  | .phase1 => { b with b1 := v }
  | .phase2 => { b with b2 := v }

/-- `CYC <- c`. -/
def State.setCyc (s : State) (c : Phase) : State := { s with cyc := c }

/-- `BUF[i] <- v`. -/
def State.setBuf (s : State) (i : Phase) (v : Byte) : State := { s with buf := s.buf.write v i }

/-- `X` read as a signed integer (`10_state.md` R14). -/
def State.readX (s : State) : Int := s.x.toInt

/-- `X <- n`, in `W_POS` bits (`10_state.md` R14; log 6). -/
def State.setX (s : State) (n : Int) : State := { s with x := BitVec.ofInt 16 n }

/-- `Y` read as a signed integer (`10_state.md` R15). -/
def State.readY (s : State) : Int := s.y.toInt

/-- `Y <- n`, in `W_POS` bits (`10_state.md` R15; log 6). -/
def State.setY (s : State) (n : Int) : State := { s with y := BitVec.ofInt 16 n }

/-- `BTN <- v` (`10_state.md` R18). -/
def State.setBtn (s : State) (v : BitVec 3) : State := { s with btn := v }

/-- `EOI <- v` (`10_state.md` R20). -/
def State.setEoi (s : State) (v : Bool) : State := { s with eoi := v }

/-- Drive the wire `sx`. -/
def State.driveSx (s : State) (n : Int) : State := { s with wires := { s.wires with sx := n } }

/-- Drive the wire `sy`. -/
def State.driveSy (s : State) (n : Int) : State := { s with wires := { s.wires with sy := n } }

/-- Drive the wire `xn`. -/
def State.driveXn (s : State) (n : Int) : State := { s with wires := { s.wires with xn := n } }

/-- Drive the wire `yn`. -/
def State.driveYn (s : State) (n : Int) : State := { s with wires := { s.wires with yn := n } }

/-- The end of a completion: nothing survives on the wires (`10_state.md` R24; log 3). -/
def State.releaseWires (s : State) : State := { s with wires := Wires.idle }

/-! ## Accepting a byte, and the end of its interrupt -/

/-- What every Byte step does before anything else: `BUF[CYC] <- b`, and the phase advances (`40_reassembly.md` R60;
`60_exceptions.md` R105: nothing is saved, masked or switched). `c` is the phase the byte is taken in. -/
def fileByte (c : Phase) (b : Byte) (s : State) : State :=
  (s.setBuf c b).setCyc c.next

/-- `EOI <- 1`, the last thing every Byte step does (`60_exceptions.md` R106; log 9). -/
def signalEoi (s : State) : State := s.setEoi true

/-- `EOI <- 0`, in every step that is not a Byte step (`60_exceptions.md` R106; log 9). -/
def clearEoi (s : State) : State := s.setEoi false

/-! ## The pins of a cycle -/

/-- The pins sampled at the next edge: the first of the input list, and free values once it is used up (log 1). -/
def State.pins (s : State) : Pins :=
  match s.input with
  | p :: _ => p
  | [] => ⟨Config.freeRst s.drawn, Config.freeRxValid s.drawn, Config.freeRxData s.drawn⟩

/-- That sample is taken: the list moves on, or one more free sample has been drawn (log 1). -/
def State.takePins (s : State) : State :=
  match s.input with
  | _ :: ps => { s with input := ps }
  | [] => { s with drawn := s.drawn + 1 }

/-- The event of the next cycle (`60_exceptions.md` R103). -/
def State.event (s : State) : Event := s.pins.event

/-! ## The output ports -/

/-- The values of the six output ports (`10_state.md` R21). -/
structure Outputs where
  curX : Pos
  curY : Pos
  btnLeft : Bool
  btnRight : Bool
  btnMiddle : Bool
  eoi : Bool
  deriving DecidableEq, Repr

/-- The output ports are functions of the state alone (`10_state.md` R21). -/
def State.outputs (s : State) : Outputs where
  curX := s.x
  curY := s.y
  btnLeft := leftFlag s.btn
  btnRight := rightFlag s.btn
  btnMiddle := middleFlag s.btn
  eoi := s.eoi

/-- The call `signal_end_of_interrupt(id)` the interrupt controller sees in this cycle, with `id = IRQ_ID`
(`60_exceptions.md` R106, R117; log 14). -/
def State.endOfInterrupt (s : State) : Option Nat :=
  if s.eoi then some Config.irqId else none

end Sys2Proof.Machine
end

