-- ==== Sys2Proof/Machine/Accumulate.lean ====
section
/-! DEFINITION. The saturating position accumulator: ACCX, ACCY, CLAMPX, CLAMPY (`42_accumulate_clamp.md`). -/

namespace Sys2Proof.Machine

/-- ACCX: `xn := X + sx`, an integer sum with no wrap-around (`42_accumulate_clamp.md` R85). -/
def execAccx (s : State) : Host.Outcome State Fault Refusal :=
  .next (s.driveXn (s.readX + s.wires.sx))

/-- ACCY: `yn := Y + sy`, an integer sum with no wrap-around (`42_accumulate_clamp.md` R86). -/
def execAccy (s : State) : Host.Outcome State Fault Refusal :=
  .next (s.driveYn (s.readY + s.wires.sy))

/-- CLAMPX: `X <- clamp(xn, 0, X_MAX)` (`42_accumulate_clamp.md` R88). -/
def execClampx (s : State) : Host.Outcome State Fault Refusal :=
  .next (s.setX (clamp s.wires.xn 0 Config.xMax))

/-- CLAMPY: `Y <- clamp(yn, 0, Y_MAX)` (`42_accumulate_clamp.md` R89). -/
def execClampy (s : State) : Host.Outcome State Fault Refusal :=
  .next (s.setY (clamp s.wires.yn 0 Config.yMax))

end Sys2Proof.Machine
end

