-- ==== Sys2Proof/Machine/Buttons.lean ====
section
/-! DEFINITION. The button decoder: BTN (`43_buttons.md`). -/

namespace Sys2Proof.Machine

/-- BTN: all three flags from status bits 2:0, pressed exactly where the bit is clear (`43_buttons.md` R95). -/
def execBtn (low : BitVec 3) (s : State) : Host.Outcome State Fault Refusal :=
  .next (s.setBtn (buttonFlags low))

end Sys2Proof.Machine
end

