-- ==== Sys2Proof/Machine/DeltaDecode.lean ====
section
/-! DEFINITION. The sign-extending delta-X/Y decoder: XSUB, XADD, XOVF, YSUB, YADD, YOVF (`41_delta_decode.md`). Each
turns one delta byte into a signed step and drives it on a wire; none reads or writes a register (R70, R83). -/

namespace Sys2Proof.Machine

/-- XSUB: `sx := −dx` (`41_delta_decode.md` R75). -/
def execXsub (dx : Byte) (s : State) : Host.Outcome State Fault Refusal :=
  .next (s.driveSx (-(delta dx)))

/-- XADD: `sx := dx` (`41_delta_decode.md` R76). -/
def execXadd (dx : Byte) (s : State) : Host.Outcome State Fault Refusal :=
  .next (s.driveSx (delta dx))

/-- XOVF: `sx := tdiv2(dx)` (`41_delta_decode.md` R77). -/
def execXovf (dx : Byte) (s : State) : Host.Outcome State Fault Refusal :=
  .next (s.driveSx (tdiv2 (delta dx)))

/-- YSUB: `sy := −dy` (`41_delta_decode.md` R78). -/
def execYsub (dy : Byte) (s : State) : Host.Outcome State Fault Refusal :=
  .next (s.driveSy (-(delta dy)))

/-- YADD: `sy := dy` (`41_delta_decode.md` R79). -/
def execYadd (dy : Byte) (s : State) : Host.Outcome State Fault Refusal :=
  .next (s.driveSy (delta dy))

/-- YOVF: `sy := −tdiv2(dy)`, the opposite sign of XOVF on purpose (`41_delta_decode.md` R80, R81). -/
def execYovf (dy : Byte) (s : State) : Host.Outcome State Fault Refusal :=
  .next (s.driveSy (-(tdiv2 (delta dy))))

/-- The X slot of a completing packet: the one operation its status bits select (`30_encoding.md` R52). -/
def execXSlot (op : SlotOp) (dx : Byte) (s : State) : Host.Outcome State Fault Refusal :=
  match op with
  | .sub => execXsub dx s
  | .add => execXadd dx s
  | .ovf => execXovf dx s

/-- The Y slot of a completing packet: the one operation its status bits select (`30_encoding.md` R53). -/
def execYSlot (op : SlotOp) (dy : Byte) (s : State) : Host.Outcome State Fault Refusal :=
  match op with
  | .sub => execYsub dy s
  | .add => execYadd dy s
  | .ovf => execYovf dy s

end Sys2Proof.Machine
end

