-- ==== Sys2Proof/Machine/Reassembly.lean ====
section
/-! DEFINITION. The packet reassembler: RX0, RX1, RX2, NOPI (`40_reassembly.md`). -/

namespace Sys2Proof.Machine

/-- RX0: `BUF[0] <- b; CYC <- 1; EOI <- 1` (`40_reassembly.md` R61; log 4). -/
def execRx0 (b : Byte) (s : State) : Host.Outcome State Fault Refusal :=
  .next (signalEoi (fileByte .phase0 b s))

/-- RX1: `BUF[1] <- b; CYC <- 2; EOI <- 1` (`40_reassembly.md` R62; log 4). -/
def execRx1 (b : Byte) (s : State) : Host.Outcome State Fault Refusal :=
  .next (signalEoi (fileByte .phase1 b s))

/-- Packet completion: the bundle the buffered packet selects, run in the order of `40_reassembly.md` R60 (any order
gives the same state: `60_exceptions.md` R104). `BUF[2]` already holds the completing byte (R64). -/
def completePacket (s : State) : Host.Outcome State Fault Refusal :=
  let status := s.buf.read .phase0
  seq (execXSlot (xSelect status) (s.buf.read .phase1) s) fun s =>
  seq (execYSlot (ySelect status) (s.buf.read .phase2) s) fun s =>
  seq (execAccx s) fun s =>
  seq (execAccy s) fun s =>
  seq (execClampx s) fun s =>
  seq (execClampy s) fun s =>
  execBtn (statusButtons status) s

/-- RX2: `BUF[2] <- b; CYC <- 0;` packet completion; `EOI <- 1` (`40_reassembly.md` R63; log 4). The three bytes stay
in the buffer (R68). -/
def execRx2 (b : Byte) (s : State) : Host.Outcome State Fault Refusal :=
  seq (completePacket (fileByte .phase2 b s)) fun s => .next (signalEoi s.releaseWires)

/-- NOPI: `EOI <- 0`, nothing else (`40_reassembly.md` R67). -/
def execNopi (s : State) : Host.Outcome State Fault Refusal :=
  .next (clearEoi s)

end Sys2Proof.Machine
end

