-- ==== Sys2Proof/Machine/Reset.lean ====
section
/-! DEFINITION. The reset step: RST (`70_reset_and_hazards.md`). -/

namespace Sys2Proof.Machine

/-- RST: every register takes its reset value, whatever the state (`70_reset_and_hazards.md` R122). What the
environment drives in later cycles is not the block's to reset, so the model's `input` and `drawn` stay (log 1). -/
def execRst (s : State) : Host.Outcome State Fault Refusal :=
  .next { State.reset with input := s.input, drawn := s.drawn }

end Sys2Proof.Machine
end

