-- ==== Sys2Proof/Machine/Dispatch.lean ====
section
/-! DEFINITION. One arm per operation: the call of its meaning. -/

namespace Sys2Proof.Machine

def exec (i : Instr) (s : State) : Host.Outcome State Fault Refusal :=
  match i with
  | .rx0 b => Sys2Proof.Machine.execRx0 b s
  | .rx1 b => Sys2Proof.Machine.execRx1 b s
  | .rx2 b => Sys2Proof.Machine.execRx2 b s
  | .nopi => Sys2Proof.Machine.execNopi s
  | .xsub dx => Sys2Proof.Machine.execXsub dx s
  | .xadd dx => Sys2Proof.Machine.execXadd dx s
  | .xovf dx => Sys2Proof.Machine.execXovf dx s
  | .ysub dy => Sys2Proof.Machine.execYsub dy s
  | .yadd dy => Sys2Proof.Machine.execYadd dy s
  | .yovf dy => Sys2Proof.Machine.execYovf dy s
  | .accx => Sys2Proof.Machine.execAccx s
  | .accy => Sys2Proof.Machine.execAccy s
  | .clampx => Sys2Proof.Machine.execClampx s
  | .clampy => Sys2Proof.Machine.execClampy s
  | .btn low => Sys2Proof.Machine.execBtn low s
  | .rst => Sys2Proof.Machine.execRst s

end Sys2Proof.Machine
end

