-- ==== Sys2Proof/Machine/Stimulus.lean ====
section
/-! DEFINITION. How the environment presents bytes: the notation for stimuli (`30_encoding.md` R57, R58, R59), and
what an instruction of the opcode table needs in front of it to be the next one to run. -/

namespace Sys2Proof

/-- The cycle `RX b`: `rst = 0`, `rx_valid = 1`, `rx_data = b` (`30_encoding.md` R57). -/
def Pins.rx (b : Byte) : Pins := ⟨false, true, b⟩

/-- The cycle `IDLE`: `rst = 0`, `rx_valid = 0`; `rx_data` is ignored (`30_encoding.md` R57; `10_state.md` R22). -/
def Pins.idle : Pins := ⟨false, false, 0x00#8⟩

/-- The cycle `RST`: `rst = 1`; the other pins are ignored (`30_encoding.md` R57; `60_exceptions.md` R103). -/
def Pins.reset : Pins := ⟨true, false, 0x00#8⟩

/-- One line of a stimulus (`30_encoding.md` R57, R58). -/
inductive StimulusLine where
  | rx (b : Byte)
  | idle (n : Nat)
  | rst
  | pkt (status dx dy : Byte)
  deriving DecidableEq, Repr

/-- The cycles a line stands for; `PKT s, x, y` is `RX s`, `RX x`, `RX y` (`30_encoding.md` R57, R58). -/
def StimulusLine.pins : StimulusLine → List Pins
  | .rx b => [Pins.rx b]
  | .idle n => List.replicate n Pins.idle
  | .rst => [Pins.reset]
  | .pkt s x y => [Pins.rx s, Pins.rx x, Pins.rx y]

/-- The cycles of a whole stimulus. -/
def stimulusPins (ls : List StimulusLine) : List Pins := ls.flatMap StimulusLine.pins

/-- A delta written in decimal: a negative one stands for its two's complement byte (`30_encoding.md` R59). -/
def deltaByte (n : Int) : Byte := BitVec.ofInt 8 n

end Sys2Proof

namespace Sys2Proof.Machine

/-- `s` with these cycles presented next, before whatever was to come. -/
def State.present (s : State) (ps : List Pins) : State := { s with input := ps ++ s.input }

/-- `s` with an instruction of the opcode table, of `nbits` bits `w`, as the next to run (log 2). A byte is
presented as it is, and runs in the phase `s` is in. A packet is presented as its completing byte, with its first
two bytes already in the buffer and the phase at 2. No bits are an idle cycle. -/
def presentWord (s : State) (nbits w : Nat) : State :=
  if nbits == 24 then
    let p := BitVec.ofNat 24 w
    (((s.setBuf .phase0 (packetStatus p)).setBuf .phase1 (packetDX p)).setCyc .phase2).present
      [Pins.rx (packetDY p)]
  else if nbits == 8 then s.present [Pins.rx (BitVec.ofNat 8 w)]
  else s.present [Pins.idle]

end Sys2Proof.Machine
end

