-- ==== Sys2Proof/Machine/Step.lean ====
section
/-! DEFINITION. One step is one rising edge of `clk`: sample the pins, choose the event, perform the operation it
selects in the current phase (`00_scope.md` R7; `60_exceptions.md` R103; `30_encoding.md` R55; log 10). -/

namespace Sys2Proof.Machine

/-- The operation the next step performs: selected by the event and by `CYC` (`30_encoding.md` R47, R55). -/
def fetch (s : State) : Instr := decodeEvent s.cyc s.event

/-- One step of the block. -/
def step (s : State) : Host.Outcome State Fault Refusal := exec (fetch s) s.takePins

/-- `s` with an instruction of the opcode table placed where the next step finds it (log 2). -/
def State.withFetchWord (s : State) (nbits w : Nat) : State := presentWord s nbits w

end Sys2Proof.Machine
end

