-- ==== Sys2Proof/Machine/Trace.lean ====
section
/-! DEFINITION. Runs and bundles, for claims: the bundle of a packet run operation by operation, and the states a
stimulus passes through (`20_memory.md` R42; `70_reset_and_hazards.md` R138). -/

namespace Sys2Proof.Machine

/-- Perform operations one after another. -/
def execAll : List Instr → State → Host.Outcome State Fault Refusal
  | [], s => .next s
  | i :: is, s => seq (exec i s) (execAll is)

/-- The run of a stimulus from a state: one step per cycle it lists. What `s` had listed is replaced. -/
def runPins (ps : List Pins) (s : State) : Host.Outcome State Fault Refusal :=
  Sys2Proof.core.run ps.length { s with input := ps }

/-- The states after each of the next `n` steps, first one first; it ends early where a step does not answer a
state. -/
def trace : Nat → State → List State
  | 0, _ => []
  | n + 1, s =>
    match step s with
    | .next t => t :: trace n t
    | .fault _ => []
    | .refused _ => []

end Sys2Proof.Machine

namespace Sys2Proof

/-- The cycle carries a Byte event. -/
def Pins.isByte (p : Pins) : Bool :=
  match p.event with
  | .byte _ => true
  | .reset => false
  | .idle => false

/-- The cycle carries a Reset event. -/
def Pins.isReset (p : Pins) : Bool :=
  match p.event with
  | .reset => true
  | .byte _ => false
  | .idle => false

/-- `strip`: a sequence of events with every `Idle` removed (`40_reassembly.md` R66). -/
def stripIdle (ps : List Pins) : List Event :=
  (ps.map Pins.event).filter (fun e => e != Event.idle)

end Sys2Proof
end

