-- ==== Sys2Proof/Safety.lean ====
section
/-! DEFINITION. What a safe state is: the position inside the viewport (`10_state.md` R16), and nothing left on the
wires (`10_state.md` R24; log 3). What a safe run is: one that never stops (`00_scope.md` R8). -/

namespace Sys2Proof.Machine

/-- `0 ≤ X ≤ X_MAX` and `0 ≤ Y ≤ Y_MAX` (`10_state.md` R16). -/
abbrev State.InViewport (s : State) : Prop :=
  0 ≤ s.readX ∧ s.readX ≤ Config.xMax ∧ 0 ≤ s.readY ∧ s.readY ≤ Config.yMax

/-- Nothing stands on the wires (`10_state.md` R24; log 3). -/
abbrev State.WiresIdle (s : State) : Prop := s.wires = Wires.idle

/-- The invariant of the block. -/
abbrev State.Inv (s : State) : Prop := s.InViewport ∧ s.WiresIdle

/-- The run of `n` steps from `s` never stops. -/
def State.RunsOn (s : State) (n : Nat) : Prop :=
  ∃ t : State, Sys2Proof.core.run n s = .next t

/-- Two states agree on all the block is (`10_state.md` R10) but `EOI` (`40_reassembly.md` R66). -/
abbrev State.AgreeButEoi (s t : State) : Prop :=
  s.cyc = t.cyc ∧ s.buf = t.buf ∧ s.x = t.x ∧ s.y = t.y ∧ s.btn = t.btn

/-- Two states agree on all that can reach an output later: everything but the buffer entries the current packet has
not written yet (`40_reassembly.md` R65). -/
def State.AgreeWritten (s t : State) : Prop :=
  s.cyc = t.cyc ∧ s.x = t.x ∧ s.y = t.y ∧ s.btn = t.btn ∧ s.eoi = t.eoi ∧
    ∀ i : Phase, i.index < s.cyc.index → s.buf.read i = t.buf.read i

end Sys2Proof.Machine
end

