-- ==== Sys2Proof/Certificates/Slice0/Obligations.lean ====
section
/-! DEFINITION. The statements for the provers. Each names the rule of the spec it formalises; where a clause rests on
a choice of the model or a decision the spec marks as its own, its docstring says so. -/

open Sys2Proof Sys2Proof.Machine

/-! ## The byte operations -/

/-- RX0 (`40_reassembly.md` R61): in phase 0 it is what a Byte event performs, and it files the byte in `BUF[0]`, sets
`CYC` to 1 and `EOI` to 1, and leaves everything else. -/
def Obligations.Rx0FilesTheStatusByte : Prop :=
  ∀ (b : Byte) (s : State), s.cyc = .phase0 →
    decodeEvent s.cyc (.byte b) = .rx0 b ∧
    exec (.rx0 b) s = .next { s with cyc := .phase1, buf := { s.buf with b0 := b }, eoi := true }

/-- RX1 (`40_reassembly.md` R62): in phase 1 it is what a Byte event performs, and it files the byte in `BUF[1]`, sets
`CYC` to 2 and `EOI` to 1, and leaves everything else. -/
def Obligations.Rx1FilesTheDeltaXByte : Prop :=
  ∀ (b : Byte) (s : State), s.cyc = .phase1 →
    decodeEvent s.cyc (.byte b) = .rx1 b ∧
    exec (.rx1 b) s = .next { s with cyc := .phase2, buf := { s.buf with b1 := b }, eoi := true }

/-- RX2 (`40_reassembly.md` R63): in phase 2 it is what a Byte event performs, and it completes the packet: `BUF[2]`,
`CYC`, the two clamped positions, the three button flags and `EOI` take the values the rule gives, and the buffer's
other entries stay. -/
def Obligations.Rx2CompletesThePacket : Prop :=
  ∀ (b : Byte) (s : State), s.cyc = .phase2 →
    decodeEvent s.cyc (.byte b) = .rx2 b ∧
    ∃ t : State, exec (.rx2 b) s = .next t ∧
      t.buf = { s.buf with b2 := b } ∧ t.cyc = .phase0 ∧
      t.readX = max 0 (min 784 (s.readX +
        (if s.buf.b0.getLsbD 6 then s.buf.b1.toInt.tdiv 2
         else if s.buf.b0.getLsbD 4 then s.buf.b1.toInt else -s.buf.b1.toInt))) ∧
      t.readY = max 0 (min 576 (s.readY +
        (if s.buf.b0.getLsbD 7 then -(b.toInt.tdiv 2)
         else if s.buf.b0.getLsbD 5 then b.toInt else -b.toInt))) ∧
      (∀ i : Nat, i < 3 → t.btn.getLsbD i = !s.buf.b0.getLsbD i) ∧
      t.eoi = true

/-- The model's choice (log 4), no rule of the spec: `exec` of RX0, RX1 and RX2 does in every phase what the operation
does in its own, so that what the three statements above say holds whatever `CYC` is. A step never asks for it. -/
def Obligations.ByteOperationsDoNotReadThePhase : Prop :=
  ∀ (b : Byte) (s : State) (c : Phase),
    exec (.rx0 b) { s with cyc := c } = exec (.rx0 b) s ∧
    exec (.rx1 b) { s with cyc := c } = exec (.rx1 b) s ∧
    exec (.rx2 b) { s with cyc := c } = exec (.rx2 b) s

/-- The model's own fields (log 1, log 3), no rule of the spec: no operation touches the pins to come or the count of free
samples, and RX2 leaves nothing on the wires. -/
def Obligations.OperationsKeepThePinsToCome : Prop :=
  ∀ (i : Instr) (s t : State), exec i s = .next t →
    t.input = s.input ∧ t.drawn = s.drawn ∧ (∀ b : Byte, i = .rx2 b → t.wires = Wires.idle)

/-- The byte step as a whole (`40_reassembly.md` R60): for every state and every cycle that presents a byte, the step
stores it at `BUF[CYC]`; in phases 0 and 1 the phase goes up by one and position and buttons stay; in phase 2 the
phase returns to 0 and position and buttons take the completed packet's values; `EOI` becomes 1 in every phase. -/
def Obligations.ByteStepFollowsTheProcedure : Prop :=
  ∀ (s : State) (p : Pins) (rest : List Pins),
    s.input = p :: rest → p.rst = false → p.rxValid = true →
    ∃ t : State, step s = .next t ∧ t.eoi = true ∧
      (∀ i : Phase, t.buf.read i = if i = s.cyc then p.rxData else s.buf.read i) ∧
      (s.cyc = .phase0 → t.cyc = .phase1 ∧ t.x = s.x ∧ t.y = s.y ∧ t.btn = s.btn) ∧
      (s.cyc = .phase1 → t.cyc = .phase2 ∧ t.x = s.x ∧ t.y = s.y ∧ t.btn = s.btn) ∧
      (s.cyc = .phase2 → t.cyc = .phase0 ∧
        t.readX = max 0 (min 784 (s.readX +
          (if t.buf.b0.getLsbD 6 then t.buf.b1.toInt.tdiv 2
           else if t.buf.b0.getLsbD 4 then t.buf.b1.toInt else -t.buf.b1.toInt))) ∧
        t.readY = max 0 (min 576 (s.readY +
          (if t.buf.b0.getLsbD 7 then -(t.buf.b2.toInt.tdiv 2)
           else if t.buf.b0.getLsbD 5 then t.buf.b2.toInt else -t.buf.b2.toInt))) ∧
        t.btn = ~~~(t.buf.b0.extractLsb' 0 3))

/-- NOPI (`40_reassembly.md` R67, a rule the spec marks as its own decision D3, D4): it is what an Idle event performs
in every phase; `EOI` becomes 0 and everything else stays. -/
def Obligations.NopiClearsEoiOnly : Prop :=
  ∀ (c : Phase) (s : State),
    decodeEvent c .idle = .nopi ∧ exec .nopi s = .next { s with eoi := false }

/-- RST (`70_reset_and_hazards.md` R122, R26; the values are the spec's own decisions D2, D6, D7): it is what a Reset
event performs in every phase; whatever the state, every register takes its reset value, and what the environment will
drive stays (the model's own fields, log 1). -/
def Obligations.RstLoadsTheResetValues : Prop :=
  ∀ (c : Phase) (s : State),
    decodeEvent c .reset = .rst ∧
    ∃ t : State, exec .rst s = .next t ∧ t.cyc = .phase0 ∧ t.buf = ⟨0x00#8, 0x00#8, 0x00#8⟩ ∧
      t.readX = 400 ∧ t.readY = 300 ∧ t.btn = 0b000#3 ∧ t.eoi = false ∧ t.wires = Wires.idle ∧
      t.input = s.input ∧ t.drawn = s.drawn ∧ exec .rst t = .next t

/-! ## The decoder's operations -/

/-- XSUB (`41_delta_decode.md` R75): `sx` is minus the signed delta, so that the accumulator forms `X − dx`; status
bits 6 and 4 clear select it. No register changes. -/
def Obligations.XsubSubtractsDeltaX : Prop :=
  ∀ (dx : Byte) (s : State),
    exec (.xsub dx) s = .next { s with wires := { s.wires with sx := -dx.toInt } } ∧
    execAll [.xsub dx, .accx] s =
      .next { s with wires := { s.wires with sx := -dx.toInt, xn := s.readX - dx.toInt } } ∧
    ∀ p : PacketWord, p.getLsbD 6 = false → p.getLsbD 4 = false →
      Instr.xsub (p.extractLsb' 8 8) ∈ decode (.packet p)

/-- XADD (`41_delta_decode.md` R76): `sx` is the signed delta, so that the accumulator forms `X + dx`; status bit 6
clear and bit 4 set select it. No register changes. -/
def Obligations.XaddAddsDeltaX : Prop :=
  ∀ (dx : Byte) (s : State),
    exec (.xadd dx) s = .next { s with wires := { s.wires with sx := dx.toInt } } ∧
    execAll [.xadd dx, .accx] s =
      .next { s with wires := { s.wires with sx := dx.toInt, xn := s.readX + dx.toInt } } ∧
    ∀ p : PacketWord, p.getLsbD 6 = false → p.getLsbD 4 = true →
      Instr.xadd (p.extractLsb' 8 8) ∈ decode (.packet p)

/-- XOVF (`41_delta_decode.md` R77): `sx` is the signed delta halved toward zero, so that the accumulator adds it;
status bit 6 set selects it, whatever bit 4 is. No register changes. -/
def Obligations.XovfAddsHalfDeltaX : Prop :=
  ∀ (dx : Byte) (s : State),
    exec (.xovf dx) s = .next { s with wires := { s.wires with sx := dx.toInt.tdiv 2 } } ∧
    execAll [.xovf dx, .accx] s =
      .next { s with wires := { s.wires with sx := dx.toInt.tdiv 2, xn := s.readX + dx.toInt.tdiv 2 } } ∧
    ∀ p : PacketWord, p.getLsbD 6 = true → Instr.xovf (p.extractLsb' 8 8) ∈ decode (.packet p)

/-- YSUB (`41_delta_decode.md` R78): `sy` is minus the signed delta, so that the accumulator forms `Y − dy`; status
bits 7 and 5 clear select it. No register changes. -/
def Obligations.YsubSubtractsDeltaY : Prop :=
  ∀ (dy : Byte) (s : State),
    exec (.ysub dy) s = .next { s with wires := { s.wires with sy := -dy.toInt } } ∧
    execAll [.ysub dy, .accy] s =
      .next { s with wires := { s.wires with sy := -dy.toInt, yn := s.readY - dy.toInt } } ∧
    ∀ p : PacketWord, p.getLsbD 7 = false → p.getLsbD 5 = false →
      Instr.ysub (p.extractLsb' 16 8) ∈ decode (.packet p)

/-- YADD (`41_delta_decode.md` R79): `sy` is the signed delta, so that the accumulator forms `Y + dy`; status bit 7
clear and bit 5 set select it. No register changes. -/
def Obligations.YaddAddsDeltaY : Prop :=
  ∀ (dy : Byte) (s : State),
    exec (.yadd dy) s = .next { s with wires := { s.wires with sy := dy.toInt } } ∧
    execAll [.yadd dy, .accy] s =
      .next { s with wires := { s.wires with sy := dy.toInt, yn := s.readY + dy.toInt } } ∧
    ∀ p : PacketWord, p.getLsbD 7 = false → p.getLsbD 5 = true →
      Instr.yadd (p.extractLsb' 16 8) ∈ decode (.packet p)

/-- YOVF (`41_delta_decode.md` R80): `sy` is minus the signed delta halved toward zero, in either order of negation and
halving, so that the accumulator subtracts it; status bit 7 set selects it, whatever bit 5 is. No register changes. -/
def Obligations.YovfSubtractsHalfDeltaY : Prop :=
  ∀ (dy : Byte) (s : State),
    exec (.yovf dy) s = .next { s with wires := { s.wires with sy := -(dy.toInt.tdiv 2) } } ∧
    -(dy.toInt.tdiv 2) = (-dy.toInt).tdiv 2 ∧
    execAll [.yovf dy, .accy] s =
      .next { s with wires := { s.wires with sy := -(dy.toInt.tdiv 2), yn := s.readY - dy.toInt.tdiv 2 } } ∧
    ∀ p : PacketWord, p.getLsbD 7 = true → Instr.yovf (p.extractLsb' 16 8) ∈ decode (.packet p)

/-! ## The accumulator's operations -/

/-- ACCX (`42_accumulate_clamp.md` R85): `xn` is the exact integer sum of `X` and `sx`; every packet performs it; inside
the viewport and for a step of at most 128 the sum lies in [−128, 912]. No register changes. -/
def Obligations.AccxFormsTheExactSum : Prop :=
  ∀ s : State,
    exec .accx s = .next { s with wires := { s.wires with xn := s.readX + s.wires.sx } } ∧
    (∀ p : PacketWord, Instr.accx ∈ decode (.packet p)) ∧
    (s.InViewport → -128 ≤ s.wires.sx → s.wires.sx ≤ 128 →
      ∃ t : State, exec .accx s = .next t ∧ -128 ≤ t.wires.xn ∧ t.wires.xn ≤ 912)

/-- ACCY (`42_accumulate_clamp.md` R86): `yn` is the exact integer sum of `Y` and `sy`; every packet performs it; inside
the viewport and for a step of at most 128 the sum lies in [−128, 704]. No register changes. -/
def Obligations.AccyFormsTheExactSum : Prop :=
  ∀ s : State,
    exec .accy s = .next { s with wires := { s.wires with yn := s.readY + s.wires.sy } } ∧
    (∀ p : PacketWord, Instr.accy ∈ decode (.packet p)) ∧
    (s.InViewport → -128 ≤ s.wires.sy → s.wires.sy ≤ 128 →
      ∃ t : State, exec .accy s = .next t ∧ -128 ≤ t.wires.yn ∧ t.wires.yn ≤ 704)

/-- CLAMPX (`42_accumulate_clamp.md` R88): from every state `X` becomes 0 below 0, 784 above 784 and `xn` itself
between; nothing else changes; every packet performs it; an `X` at a bound stays there under a step that does not lead
back inside. -/
def Obligations.ClampxSaturatesX : Prop :=
  ∀ s : State,
    (∃ t : State, exec .clampx s = .next t ∧ t = { s with x := t.x } ∧
      (s.wires.xn < 0 → t.readX = 0) ∧ (784 < s.wires.xn → t.readX = 784) ∧
      (0 ≤ s.wires.xn → s.wires.xn ≤ 784 → t.readX = s.wires.xn)) ∧
    (∀ p : PacketWord, Instr.clampx ∈ decode (.packet p)) ∧
    (s.readX = 0 → s.wires.sx ≤ 0 → ∃ t : State, execAll [.accx, .clampx] s = .next t ∧ t.readX = 0) ∧
    (s.readX = 784 → 0 ≤ s.wires.sx → ∃ t : State, execAll [.accx, .clampx] s = .next t ∧ t.readX = 784)

/-- CLAMPY (`42_accumulate_clamp.md` R89): from every state `Y` becomes 0 below 0, 576 above 576 and `yn` itself
between; nothing else changes; every packet performs it; a `Y` at a bound stays there under a step that does not lead
back inside. -/
def Obligations.ClampySaturatesY : Prop :=
  ∀ s : State,
    (∃ t : State, exec .clampy s = .next t ∧ t = { s with y := t.y } ∧
      (s.wires.yn < 0 → t.readY = 0) ∧ (576 < s.wires.yn → t.readY = 576) ∧
      (0 ≤ s.wires.yn → s.wires.yn ≤ 576 → t.readY = s.wires.yn)) ∧
    (∀ p : PacketWord, Instr.clampy ∈ decode (.packet p)) ∧
    (s.readY = 0 → s.wires.sy ≤ 0 → ∃ t : State, execAll [.accy, .clampy] s = .next t ∧ t.readY = 0) ∧
    (s.readY = 576 → 0 ≤ s.wires.sy → ∃ t : State, execAll [.accy, .clampy] s = .next t ∧ t.readY = 576)

/-- BTN (`43_buttons.md` R95): from every state each of the three flags is 1 exactly where its status bit is clear, and
nothing else changes; every packet performs it, on status bits 2:0 alone. -/
def Obligations.BtnFlagsAreTheClearBits : Prop :=
  ∀ (low : BitVec 3) (s : State),
    (∃ t : State, exec (.btn low) s = .next t ∧ t = { s with btn := t.btn } ∧
      t.btn.getLsbD 0 = !low.getLsbD 0 ∧ t.btn.getLsbD 1 = !low.getLsbD 1 ∧ t.btn.getLsbD 2 = !low.getLsbD 2) ∧
    ∀ p : PacketWord, Instr.btn (p.extractLsb' 0 3) ∈ decode (.packet p)

/-! ## Selection and encoding -/

/-- The two slot tables (`30_encoding.md` R52, R53), row by row, with their matches and masks on `P`: a packet performs
a slot operation exactly when its masked status bits match, and then on its own delta byte. -/
def Obligations.SlotSelectionIsTheTable : Prop :=
  ∀ (p : PacketWord) (d : Byte),
    (Instr.xsub d ∈ decode (.packet p) ↔ p &&& 0x000050#24 = 0x000000#24 ∧ p.extractLsb' 8 8 = d) ∧
    (Instr.xadd d ∈ decode (.packet p) ↔ p &&& 0x000050#24 = 0x000010#24 ∧ p.extractLsb' 8 8 = d) ∧
    (Instr.xovf d ∈ decode (.packet p) ↔ p &&& 0x000040#24 = 0x000040#24 ∧ p.extractLsb' 8 8 = d) ∧
    (Instr.ysub d ∈ decode (.packet p) ↔ p &&& 0x0000A0#24 = 0x000000#24 ∧ p.extractLsb' 16 8 = d) ∧
    (Instr.yadd d ∈ decode (.packet p) ↔ p &&& 0x0000A0#24 = 0x000020#24 ∧ p.extractLsb' 16 8 = d) ∧
    (Instr.yovf d ∈ decode (.packet p) ↔ p &&& 0x000080#24 = 0x000080#24 ∧ p.extractLsb' 16 8 = d)

/-- Every packet, whatever its bits, also performs ACCX, ACCY, CLAMPX, CLAMPY and BTN (`30_encoding.md` R54), after one
X-slot and one Y-slot operation, and nothing else. -/
def Obligations.EveryPacketPerformsTheFixedOperations : Prop :=
  ∀ p : PacketWord, ∃ x y : Instr,
    decode (.packet p) = [x, y, .accx, .accy, .clampx, .clampy, .btn (p.extractLsb' 0 3)] ∧
    (∃ d : Byte, x = .xsub d ∨ x = .xadd d ∨ x = .xovf d) ∧
    (∃ d : Byte, y = .ysub d ∨ y = .yadd d ∨ y = .yovf d)

/-- RX2 is the bundle its packet selects, performed one operation after another between the store of the completing
byte and the end-of-interrupt (`40_reassembly.md` R63, R64; that the wires then fall idle is the model's: log 3;
that this holds in every phase: log 4). -/
def Obligations.Rx2PerformsItsBundle : Prop :=
  ∀ (b : Byte) (s : State),
    exec (.rx2 b) s =
      seq (execAll (decode (.packet (packPacket s.buf.b0 s.buf.b1 b)))
            { s with cyc := .phase0, buf := { s.buf with b2 := b } })
        (fun t => .next { t with wires := Wires.idle, eoi := true })

/-- A step runs the decoded operation. The listed pins of the cycle choose the event, the event and `CYC` choose the
operation (`30_encoding.md` R47, R55), and the step is `exec` of it with the sample taken; with no pins listed the sample
is a free value (log 1). -/
def Obligations.StepRunsTheDecodedOperation : Prop :=
  ∀ s : State,
    (∀ (p : Pins) (rest : List Pins), s.input = p :: rest →
      step s = exec (decodeEvent s.cyc p.event) { s with input := rest }) ∧
    (s.input = [] →
      step s = exec (decodeEvent s.cyc (Pins.event
          ⟨Config.freeRst s.drawn, Config.freeRxValid s.drawn, Config.freeRxData s.drawn⟩))
        { s with drawn := s.drawn + 1 })

/-- The model's own fields (log 1), no rule of the spec: a step takes exactly one sample of the pins, from the list while it
lasts, and a free one after that. -/
def Obligations.EveryStepTakesOneSampleOfThePins : Prop :=
  ∀ s t : State, step s = .next t →
    t.input = s.input.tail ∧ t.drawn = if s.input = [] then s.drawn + 1 else s.drawn

/-- A few words written out from the encodings (`30_encoding.md` R48, R50; `opcode_table.json`) decode to the operations
they stand for. -/
def Obligations.WrittenWordsDecodeToTheirOperations : Prop :=
  decode (.event .phase0 (.byte 0x18#8)) = [.rx0 0x18#8] ∧
  decode (.event .phase1 (.byte 0x14#8)) = [.rx1 0x14#8] ∧
  decode (.event .phase2 (.byte 0x00#8)) = [.rx2 0x00#8] ∧
  decode (.packet 0b00000101_00001010_00000000#24) =
    [.xsub 0x0A#8, .ysub 0x05#8, .accx, .accy, .clampx, .clampy, .btn 0b000#3] ∧
  decode (.packet 0b01111111_01111111_00111001#24) =
    [.xadd 0x7F#8, .yadd 0x7F#8, .accx, .accy, .clampx, .clampy, .btn 0b001#3] ∧
  decode (.packet 0b10011100_11110111_11011010#24) =
    [.xovf 0xF7#8, .yovf 0x9C#8, .accx, .accy, .clampx, .clampy, .btn 0b010#3]

/-- Decoding an operation's code gives the operation back, for all sixteen and every operand; where the code is an event
it gives that operation alone; and the raw bits of the code, taken in the code's phase, are well formed and decode to a
list that holds it. -/
def Obligations.DecodeOfEncodeGivesTheOperationBack : Prop :=
  ∀ i : Instr,
    i ∈ decode (encode i) ∧
    (∀ (c : Phase) (e : Event), encode i = .event c e → decode (encode i) = [i]) ∧
    ∀ (r : RawCode) (c : Phase), encodeRaw i = some r →
      (∀ (d : Phase) (e : Event), encode i = .event d e → d = c) →
      r.wellFormed = true ∧ ∃ l : List Instr, decodeRaw c r = .ok l ∧ i ∈ l

/-- A raw string of bits is rejected, by name, exactly when it is ill formed; every other one selects something
(`30_encoding.md` R56: nothing is reserved; the raw form is the model's: log 12). -/
def Obligations.OnlyIllFormedRawCodesAreRejected : Prop :=
  ∀ (c : Phase) (r : RawCode),
    (r.lengthOk = false → decodeRaw c r = .error (.badLength r.nbits)) ∧
    (r.lengthOk = true → r.valueOk = false → decodeRaw c r = .error (.badValue r.value)) ∧
    (r.wellFormed = true → ∃ l : List Instr, decodeRaw c r = .ok l ∧ l ≠ [])

/-! ## The whole step -/

/-- The step is total (`00_scope.md` R8): every state has exactly one next state, and with it one output valuation;
no operation of any operand stops. -/
def Obligations.EveryStepAnswersOneNextState : Prop :=
  (∀ s : State, ∃! t : State, step s = .next t) ∧
  (∀ s : State, ∃! o : Outputs, ∃ t : State, step s = .next t ∧ t.outputs = o) ∧
  (∀ (i : Instr) (s : State), ∃ t : State, exec i s = .next t)

/-- Every step keeps the position in the viewport (`10_state.md` R16) and leaves nothing on the wires (`10_state.md` R24;
log 3). -/
def Obligations.StepKeepsTheInvariant : Prop :=
  ∀ s t : State, s.Inv → step s = .next t → t.Inv

/-- The reset state meets the invariant (`10_state.md` R16; `00_scope.md` R6). -/
def Obligations.ResetStateMeetsTheInvariant : Prop :=
  State.reset.Inv

/-- What reset leaves in every register (`10_state.md` R26, values the spec marks as its own decisions D6, D7; log 7), and
in the model's own fields (log 1, log 3). -/
def Obligations.ResetStateHoldsTheResetValues : Prop :=
  State.reset.cyc.toBits = 0#2 ∧ State.reset.buf.read .phase0 = 0x00#8 ∧ State.reset.buf.read .phase1 = 0x00#8 ∧
  State.reset.buf.read .phase2 = 0x00#8 ∧ State.reset.readX = 400 ∧ State.reset.readY = 300 ∧
  State.reset.btn = 0b000#3 ∧ State.reset.eoi = false ∧ State.reset.wires = Wires.idle ∧ State.reset.input = []

/-- One step on the same pins keeps two states in agreement on all but the buffer entries the current packet has not
written yet, and on every output (`40_reassembly.md` R65, which the spec marks as derived): those entries are never read
before they are written. -/
def Obligations.StepKeepsAgreementOnWhatIsWritten : Prop :=
  ∀ s t s' t' : State, s.AgreeWritten t → s.pins = t.pins → step s = .next s' → step t = .next t' →
    s'.AgreeWritten t' ∧ s'.outputs = t'.outputs

/-- `EOI` after a step is 1 exactly if the step was a Byte step (`60_exceptions.md` R106, R107; a registered pulse for every
byte is the spec's decision D4, D25; log 9). -/
def Obligations.StepSetsEoiExactlyForAByte : Prop :=
  ∀ s t : State, step s = .next t → (t.eoi = true ↔ ∃ b : Byte, s.event = .byte b)

/-- `X`, `Y` and `BTN` change only in a packet-completion step or a Reset step (`10_state.md` R17). -/
def Obligations.PositionAndButtonsChangeOnlyAtCompletionOrReset : Prop :=
  ∀ s t : State, step s = .next t →
    ¬ (s.cyc = .phase2 ∧ ∃ b : Byte, s.event = .byte b) → s.event ≠ .reset →
    t.x = s.x ∧ t.y = s.y ∧ t.btn = s.btn

/-- `CYC` (`10_state.md` R12): it holds 0, 1 or 2; a Byte event advances it modulo 3 and fills the entry it named; Idle
leaves it; Reset sets it to 0. -/
def Obligations.PhaseCountsModuloThree : Prop :=
  ∀ s t : State, step s = .next t →
    (s.cyc.toBits = 0#2 ∨ s.cyc.toBits = 1#2 ∨ s.cyc.toBits = 2#2) ∧
    (∀ b : Byte, s.event = .byte b → t.cyc.index = (s.cyc.index + 1) % 3 ∧ t.buf.read s.cyc = b) ∧
    (s.event = .idle → t.cyc = s.cyc) ∧
    (s.event = .reset → t.cyc.toBits = 0#2)

/-- The buffer (`20_memory.md` R31): a Byte step writes the whole byte at the phase from before the step and no other
entry; an Idle step writes none; a Reset step writes all three with 0x00. -/
def Obligations.BufferIsWrittenAtThePhaseOnly : Prop :=
  ∀ s t : State, step s = .next t →
    (∀ b : Byte, s.event = .byte b → ∀ i : Phase, t.buf.read i = if i = s.cyc then b else s.buf.read i) ∧
    (s.event = .idle → t.buf = s.buf) ∧
    (s.event = .reset → ∀ i : Phase, t.buf.read i = 0x00#8)

/-- The event of a cycle (`60_exceptions.md` R103, a rule the spec marks as its own decision D2, D19; `10_state.md` R22):
`rst` wins over `rx_valid`, a byte over idle, and pins that do not count are ignored. -/
def Obligations.PinsChooseTheEventByPriority : Prop :=
  ∀ p : Pins,
    (p.rst = true → p.event = .reset) ∧
    (p.rst = false → p.rxValid = true → p.event = .byte p.rxData) ∧
    (p.rst = false → p.rxValid = false → p.event = .idle)

/-- The slot operations and the additions are wires only (`41_delta_decode.md` R75 to R80 "Flags written: none";
`42_accumulate_clamp.md` R85, R86): each leaves every register and every pin to come as it was. -/
def Obligations.SlotOperationsChangeNoRegister : Prop :=
  ∀ (d : Byte) (i : Instr) (s t : State),
    (i = .xsub d ∨ i = .xadd d ∨ i = .xovf d ∨ i = .ysub d ∨ i = .yadd d ∨ i = .yovf d ∨ i = .accx ∨ i = .accy) →
    exec i s = .next t →
    t = { s with wires := t.wires }

/-! ## Runs -/

/-- The end-of-interrupt (`60_exceptions.md` R106, R107; a registered pulse for every byte is the spec's decision D4,
D25; log 9): along any stimulus `EOI` is 1 after exactly the steps that accept a byte, so that the cycles with `eoi = 1`
are as many as the bytes. -/
def Obligations.EndOfInterruptCountsTheBytes : Prop :=
  ∀ (ps : List Pins) (s : State),
    (trace ps.length { s with input := ps }).map (fun t => t.eoi) = ps.map Pins.isByte ∧
    ((trace ps.length { s with input := ps }).filter (fun t => t.outputs.eoi)).length
      = (ps.filter Pins.isByte).length

/-- Idle time and grouping are invisible (`40_reassembly.md` R66; `70_reset_and_hazards.md` R137): two stimuli with the
same Byte and Reset events in the same order lead from a state to states that differ at most in `EOI`. -/
def Obligations.IdleTimeChangesNothingButEoi : Prop :=
  ∀ (s : State) (ps qs : List Pins), stripIdle ps = stripIdle qs →
    ∃ t u : State, runPins ps s = .next t ∧ runPins qs s = .next u ∧ t.AgreeButEoi u

/-- Written before read (`40_reassembly.md` R65): whatever stood in the buffer entries the current packet has not written
yet, no later output depends on it. -/
def Obligations.UnwrittenBufferEntriesReachNoOutput : Prop :=
  ∀ (ps : List Pins) (s t : State), s.AgreeWritten t →
    ∃ s' t' : State, runPins ps s = .next s' ∧ runPins ps t = .next t' ∧ s'.AgreeWritten t' ∧
      s'.outputs = t'.outputs

/-- Packets are framed by count alone (`20_memory.md` R37): after reset and any stimulus without a further Reset, the next
byte is taken as a status, a delta-X or a delta-Y byte by the number of bytes before it modulo 3, whatever their values. -/
def Obligations.FramingIsByCountAlone : Prop :=
  ∀ (ps : List Pins) (b : Byte) (rest : List Pins), (∀ p ∈ ps, p.isReset = false) →
    ∃ t : State, runPins ps State.reset = .next t ∧
      fetch { t with input := Pins.rx b :: rest } =
        if (ps.filter Pins.isByte).length % 3 = 0 then .rx0 b
        else if (ps.filter Pins.isByte).length % 3 = 1 then .rx1 b
        else .rx2 b

/-- The pseudo-operation `PKT` (`30_encoding.md` R58, a rule the spec marks as its own decision D11): three bytes in a row
from phase 0 are one completion of the packet they form. -/
def Obligations.PacketLineIsOneCompletion : Prop :=
  ∀ (a x y : Byte) (s : State), s.cyc = .phase0 →
    runPins (StimulusLine.pkt a x y).pins s =
      exec (.rx2 y) { s with cyc := .phase2, buf := ⟨a, x, s.buf.b2⟩, eoi := true, input := [] }

/-- A run is the left-to-right composition of its parts (`20_memory.md` R42). -/
def Obligations.RunsComposeInOrderOfArrival : Prop :=
  ∀ (ps qs : List Pins) (s t : State), runPins ps s = .next t → runPins (ps ++ qs) s = runPins qs t

/-- A cycle with `rst = 1` forgets everything before it (`70_reset_and_hazards.md` R122, R123, R139, resting on the spec's
decisions D2, D6, D7): what follows runs as from the reset state, whatever byte was presented with it. -/
def Obligations.ResetForgetsThePast : Prop :=
  ∀ (s : State) (p : Pins) (ps : List Pins), p.rst = true →
    runPins (p :: ps) s = runPins ps { State.reset with drawn := s.drawn }

/-- While the line is masked every cycle is Idle and the state is frozen, but for `EOI` falling to 0
(`60_exceptions.md` R119). -/
def Obligations.MaskedLineFreezesTheState : Prop :=
  ∀ (ps : List Pins) (s : State), ps ≠ [] → (∀ p ∈ ps, p.event = .idle) →
    runPins ps s = .next { s with eoi := false, input := [] }

/-- The block never halts (`70_reset_and_hazards.md` R138; `00_scope.md` R9): from every state, for every number of steps,
whatever the pins. -/
def Obligations.EveryRunGoesOn : Prop :=
  ∀ (n : Nat) (s : State), s.RunsOn n

/-! ## Laws of the arithmetic and of the packet -/

/-- `tdiv2` (`41_delta_decode.md` R72): the quotient truncated toward zero, in both of the rule's forms; it is
odd-symmetric, maps the operand range onto [−64, 63], and differs from flooring exactly on the negative odd numbers. -/
def Obligations.HalvingTruncatesTowardZero : Prop :=
  ∀ n : Int,
    (0 ≤ n → tdiv2 n = n / 2) ∧ (n < 0 → tdiv2 n = -((-n) / 2)) ∧
    tdiv2 n = (n + if n < 0 then 1 else 0) / 2 ∧
    tdiv2 (-n) = -(tdiv2 n) ∧
    (-128 ≤ n → n ≤ 127 → -64 ≤ tdiv2 n ∧ tdiv2 n ≤ 63) ∧
    (-64 ≤ n → n ≤ 63 → ∃ m : Int, -128 ≤ m ∧ m ≤ 127 ∧ tdiv2 m = n) ∧
    (tdiv2 n ≠ n / 2 ↔ n < 0 ∧ n % 2 = 1)

/-- Overflow is treated with opposite signs on the two axes and everything else alike (`41_delta_decode.md` R81): for one
delta byte XOVF's step is the half, YOVF's minus the half; a clear sign bit subtracts and a set one adds on both. -/
def Obligations.OverflowSignsAreOpposite : Prop :=
  ∀ (d : Byte) (s : State) (p : PacketWord),
    (∃ t u : State, exec (.xovf d) s = .next t ∧ exec (.yovf d) s = .next u ∧
      t.wires.sx = d.toInt.tdiv 2 ∧ u.wires.sy = -(d.toInt.tdiv 2)) ∧
    (∃ t u : State, exec (.xsub d) s = .next t ∧ exec (.ysub d) s = .next u ∧
      t.wires.sx = -d.toInt ∧ u.wires.sy = -d.toInt) ∧
    (∃ t u : State, exec (.xadd d) s = .next t ∧ exec (.yadd d) s = .next u ∧
      t.wires.sx = d.toInt ∧ u.wires.sy = d.toInt) ∧
    (p.getLsbD 6 = false → decodeXSlot p = if p.getLsbD 4 then .xadd (packetDX p) else .xsub (packetDX p)) ∧
    (p.getLsbD 7 = false → decodeYSlot p = if p.getLsbD 5 then .yadd (packetDY p) else .ysub (packetDY p))

/-- The ranges of the steps (`41_delta_decode.md` R82). -/
def Obligations.StepsStayInTheirRanges : Prop :=
  ∀ (d : Byte) (s : State),
    (∃ t : State, exec (.xsub d) s = .next t ∧ -127 ≤ t.wires.sx ∧ t.wires.sx ≤ 128) ∧
    (∃ t : State, exec (.xadd d) s = .next t ∧ -128 ≤ t.wires.sx ∧ t.wires.sx ≤ 127) ∧
    (∃ t : State, exec (.xovf d) s = .next t ∧ -64 ≤ t.wires.sx ∧ t.wires.sx ≤ 63) ∧
    (∃ t : State, exec (.ysub d) s = .next t ∧ -127 ≤ t.wires.sy ∧ t.wires.sy ≤ 128) ∧
    (∃ t : State, exec (.yadd d) s = .next t ∧ -128 ≤ t.wires.sy ∧ t.wires.sy ≤ 127) ∧
    (∃ t : State, exec (.yovf d) s = .next t ∧ -63 ≤ t.wires.sy ∧ t.wires.sy ≤ 64)

/-- The axes are independent (`41_delta_decode.md` R83): the new `X` depends only on the old `X`, status bits 6 and 4 and
the delta-X byte, the new `Y` only on the old `Y`, status bits 7 and 5 and the delta-Y byte.
(That `CYC` need not be 2 is the model's: log 4.) -/
def Obligations.AxesAreIndependent : Prop :=
  ∀ (b c : Byte) (s t : State),
    ∃ s' t' : State, exec (.rx2 b) s = .next s' ∧ exec (.rx2 c) t = .next t' ∧
      (s.x = t.x → s.buf.b1 = t.buf.b1 → s.buf.b0.getLsbD 6 = t.buf.b0.getLsbD 6 →
        s.buf.b0.getLsbD 4 = t.buf.b0.getLsbD 4 → s'.x = t'.x) ∧
      (s.y = t.y → b = c → s.buf.b0.getLsbD 7 = t.buf.b0.getLsbD 7 →
        s.buf.b0.getLsbD 5 = t.buf.b0.getLsbD 5 → s'.y = t'.y)

/-- Ignored fields (`30_encoding.md` R56): completed packets whose status bytes differ only in bit 3, in bit 4 where bit 6 is set,
or in bit 5 where bit 7 is set, have the same effect on every register but the buffer; and no packet is illegal. -/
def Obligations.IgnoredStatusBitsHaveNoEffect : Prop :=
  ∀ (b a : Byte) (s : State), s.cyc = .phase2 →
    (∀ i : Nat, i < 8 → i ≠ 3 → (i = 4 → s.buf.b0.getLsbD 6 = false) → (i = 5 → s.buf.b0.getLsbD 7 = false) →
      a.getLsbD i = s.buf.b0.getLsbD i) →
    ∃ t u : State, exec (.rx2 b) s = .next t ∧
      exec (.rx2 b) { s with buf := { s.buf with b0 := a } } = .next u ∧
      u = { t with buf := { t.buf with b0 := a } }

/-- `BTN` carries no history (`10_state.md` R18, R19, marked as the spec's decision D8; `43_buttons.md` R97): after a
completion it is the complement of the status byte's low bits, the same from any two states that agree on those bits.
(That `CYC` need not be 2 is the model's: log 4.) -/
def Obligations.ButtonsCarryNoHistory : Prop :=
  ∀ (b c : Byte) (s t : State), s.buf.b0.extractLsb' 0 3 = t.buf.b0.extractLsb' 0 3 →
    ∃ s' t' : State, exec (.rx2 b) s = .next s' ∧ exec (.rx2 c) t = .next t' ∧
      s'.btn = t'.btn ∧ s'.btn = ~~~(s.buf.b0.extractLsb' 0 3)

/-- Saturation (`42_accumulate_clamp.md` R91): the new position is non-decreasing in the old one and in the step; the clamp
is idempotent; from 0 a step back keeps 0 and the excess is forgotten; the clamp after every packet is in general not the
clamp of the sum. -/
def Obligations.SaturationIsMonotoneAndForgets : Prop :=
  (∀ s t : State, s.readX ≤ t.readX → s.wires.sx ≤ t.wires.sx →
    ∃ s' t' : State, execAll [.accx, .clampx] s = .next s' ∧ execAll [.accx, .clampx] t = .next t' ∧
      s'.readX ≤ t'.readX) ∧
  (∀ s t : State, s.readY ≤ t.readY → s.wires.sy ≤ t.wires.sy →
    ∃ s' t' : State, execAll [.accy, .clampy] s = .next s' ∧ execAll [.accy, .clampy] t = .next t' ∧
      s'.readY ≤ t'.readY) ∧
  (∀ s : State, s.readX = 0 → s.wires.sx ≤ 0 →
    ∃ t : State, execAll [.accx, .clampx] s = .next t ∧ t.readX = 0 ∧
      ∀ k : Int, 0 < k → ∃ u : State, execAll [.accx, .clampx] (t.driveSx k) = .next u ∧ u.readX = min k 784) ∧
  (∀ n m : Int, 0 ≤ m → clamp (clamp n 0 m) 0 m = clamp n 0 m) ∧
  (∃ x k l : Int, clamp (clamp (x + k) 0 784 + l) 0 784 ≠ clamp (x + k + l) 0 784)

/-- The output ports (`10_state.md` R21, marked as the spec's decision D13, D4; `20_memory.md` R40): they show the
registers, and between packet completions and resets only `eoi` moves. -/
def Obligations.OutputPortsShowTheRegisters : Prop :=
  ∀ s : State,
    s.outputs = ⟨s.x, s.y, s.btn.getLsbD 0, s.btn.getLsbD 1, s.btn.getLsbD 2, s.eoi⟩ ∧
    (s.endOfInterrupt = if s.eoi then some Config.irqId else none) ∧
    ∀ t : State, step s = .next t → s.event ≠ .reset → (s.cyc = .phase2 → s.event = .idle) →
      t.outputs = { s.outputs with eoi := t.eoi }

/-- The parameters (`00_scope.md` R4, R5 and R6, the last resting on the spec's decisions D5, D6): the bounds are the
viewport less the cursor, the reset position lies within them, and a position register holds every intermediate sum. -/
def Obligations.ParametersAreLegal : Prop :=
  Config.viewportWidth = 800 ∧ Config.viewportHeight = 600 ∧ Config.cursorWidth = 16 ∧ Config.cursorHeight = 24 ∧
  Config.xMax = 784 ∧ Config.yMax = 576 ∧
  0 ≤ Config.xReset ∧ Config.xReset ≤ Config.xMax ∧ 0 ≤ Config.yReset ∧ Config.yReset ≤ Config.yMax ∧
  max Config.xMax Config.yMax + 128 ≤ 2 ^ (Config.wPos - 1) - 1 ∧
  ∀ (s : State) (n : Int), -128 ≤ n → n ≤ max Config.xMax Config.yMax + 128 →
    (s.setX n).readX = n ∧ (s.setY n).readY = n

/-- A delta written in decimal (`30_encoding.md` R59, marked as the spec's decision D11) is the byte that reads back as that
number. -/
def Obligations.DecimalDeltasReadBack : Prop :=
  deltaByte (-9) = 0xF7#8 ∧ deltaByte (-128) = 0x80#8 ∧ deltaByte (-1) = 0xFF#8 ∧
  ∀ n : Int, -128 ≤ n → n ≤ 127 → delta (deltaByte n) = n
end

