-- ==== Sys2Proof/Laws/Decode.lean ====
section
/-! SUPPORT. Packing and unpacking a packet word, and what the selections depend on. -/

namespace Sys2Proof

/-- The bits of a packed packet, byte by byte. -/
theorem packPacket_getLsbD (s x y : Byte) (i : Nat) :
    (packPacket s x y).getLsbD i =
      if i < 8 then s.getLsbD i else if i < 16 then x.getLsbD (i - 8) else y.getLsbD (i - 16) := by
  simp only [packPacket, BitVec.getLsbD_or, BitVec.getLsbD_shiftLeft, BitVec.getLsbD_setWidth]
  rcases Nat.lt_or_ge i 8 with h | h
  · simp [h, show i < 16 by omega, show i < 24 by omega]
  · rcases Nat.lt_or_ge i 16 with h' | h'
    · simp [show ¬ i < 8 by omega, h', show i < 24 by omega, BitVec.getLsbD_of_ge s i h]
      omega
    · rcases Nat.lt_or_ge i 24 with h'' | h''
      · simp [show ¬ i < 8 by omega, show ¬ i < 16 by omega, h'', BitVec.getLsbD_of_ge s i h,
          BitVec.getLsbD_of_ge x (i - 8) (by omega)]
        omega
      · simp [show ¬ i < 8 by omega, show ¬ i < 16 by omega, show ¬ i < 24 by omega,
          BitVec.getLsbD_of_ge y (i - 16) (by omega)]

@[simp] theorem packetStatus_pack (s x y : Byte) : packetStatus (packPacket s x y) = s := by
  apply BitVec.eq_of_getLsbD_eq
  intro i hi
  simp [packetStatus, packPacket_getLsbD, hi]

@[simp] theorem packetDX_pack (s x y : Byte) : packetDX (packPacket s x y) = x := by
  apply BitVec.eq_of_getLsbD_eq
  intro i hi
  simp [packetDX, packPacket_getLsbD, hi, show 8 + i < 16 by omega]

@[simp] theorem packetDY_pack (s x y : Byte) : packetDY (packPacket s x y) = y := by
  apply BitVec.eq_of_getLsbD_eq
  intro i hi
  simp [packetDY, packPacket_getLsbD, hi, show ¬ 16 + i < 8 by omega]

/-- A packet word is its three bytes: no bit is dropped. -/
theorem pack_unpack (p : PacketWord) : packPacket (packetStatus p) (packetDX p) (packetDY p) = p := by
  apply BitVec.eq_of_getLsbD_eq
  intro i hi
  simp only [packPacket_getLsbD, packetStatus, packetDX, packetDY, BitVec.getLsbD_extractLsb']
  split_ifs
  · simp [*]
  · simp [show i - 8 < 8 by omega, show 8 + (i - 8) = i by omega]
  · simp [show i - 16 < 8 by omega, show 16 + (i - 16) = i by omega]

/-- The status bits of a packet word carry the same numbers in the word (`30_encoding.md` R50). -/
theorem packetStatus_getLsbD (p : PacketWord) (i : Nat) (h : i < 8) :
    (packetStatus p).getLsbD i = p.getLsbD i := by
  simp only [packetStatus, BitVec.getLsbD_extractLsb', h, decide_true, Bool.true_and, Nat.zero_add]

theorem packetStatus_buttons (p : PacketWord) : statusButtons (packetStatus p) = p.extractLsb' 0 3 := by
  apply BitVec.eq_of_getLsbD_eq
  intro i hi
  simp only [statusButtons, BitVec.getLsbD_extractLsb', Nat.zero_add, packetStatus_getLsbD p i (by omega)]

/-- The X slot of a packet word, by the word's own bits. -/
theorem decodeXSlot_eq (p : PacketWord) :
    decodeXSlot p = if p.getLsbD 6 then .xovf (packetDX p)
      else if p.getLsbD 4 then .xadd (packetDX p) else .xsub (packetDX p) := by
  simp only [decodeXSlot, xSelect, statusXO, statusXS, packetStatus_getLsbD p 6 (by decide),
    packetStatus_getLsbD p 4 (by decide)]
  cases p.getLsbD 6 <;> cases p.getLsbD 4 <;> rfl

/-- The Y slot of a packet word, by the word's own bits. -/
theorem decodeYSlot_eq (p : PacketWord) :
    decodeYSlot p = if p.getLsbD 7 then .yovf (packetDY p)
      else if p.getLsbD 5 then .yadd (packetDY p) else .ysub (packetDY p) := by
  simp only [decodeYSlot, ySelect, statusYO, statusYS, packetStatus_getLsbD p 7 (by decide),
    packetStatus_getLsbD p 5 (by decide)]
  cases p.getLsbD 7 <;> cases p.getLsbD 5 <;> rfl

/-- A masked word matches when its masked bits do. -/
theorem and_eq_iff (p m r : PacketWord) :
    p &&& m = r ↔ ∀ i, i < 24 → (p.getLsbD i && m.getLsbD i) = r.getLsbD i := by
  constructor
  · rintro rfl i _
    rw [BitVec.getLsbD_and]
  · intro h
    apply BitVec.eq_of_getLsbD_eq
    intro i hi
    rw [BitVec.getLsbD_and]
    exact h i hi

@[simp] theorem decode_event (c : Phase) (e : Event) : decode (.event c e) = [decodeEvent c e] := rfl

theorem mem_decode_packet (i : Instr) (p : PacketWord) :
    i ∈ decode (.packet p) ↔ i = decodeXSlot p ∨ i = decodeYSlot p ∨ i = .accx ∨ i = .accy ∨ i = .clampx ∨
      i = .clampy ∨ i = .btn (statusButtons (packetStatus p)) := by
  simp [decode, decodePacket]

/-- The operation that stands for a packet is one of the packet's operations. -/
theorem packetRepresentative_mem (p : PacketWord) : packetRepresentative p ∈ decodePacket p := by
  simp only [packetRepresentative, decodePacket]
  split_ifs <;> simp

/-- Selection never fails: every code has an operation. -/
theorem decode_ne_nil (c : Code) : decode c ≠ [] := by
  cases c <;> simp [decode, decodePacket]

/-- The next phase is one more, modulo 3. -/
@[simp] theorem index_next (c : Phase) : c.next.index = (c.index + 1) % 3 := by
  cases c <;> rfl

theorem index_lt (c : Phase) : c.index < 3 := by
  cases c <;> decide

theorem index_injective {c d : Phase} (h : c.index = d.index) : c = d := by
  cases c <;> cases d <;> first | rfl | exact absurd h (by decide)

end Sys2Proof
end

