-- ==== Sys2Proof/Laws/Operands.lean ====
section
/-! SUPPORT. What the arithmetic of the block does, in terms of the library's integers. -/

namespace Sys2Proof.Machine

theorem sext8_eq_toInt (v : Byte) : sext8 v = v.toInt := by
  have h := v.isLt
  unfold sext8 zext8
  rw [BitVec.toInt_eq_msb_cond, BitVec.msb_eq_getLsbD_last]
  norm_num

/-- `DELTA_SIGNED` is true, so a delta byte is its two's complement number. -/
@[simp] theorem delta_eq_toInt (v : Byte) : delta v = v.toInt := by
  simp [delta, Config.deltaSigned, sext8_eq_toInt]

theorem toInt_byte_range (v : Byte) : -128 ≤ v.toInt ∧ v.toInt ≤ 127 := by
  have h1 := BitVec.le_toInt v
  have h2 := BitVec.toInt_lt (x := v)
  norm_num at h1 h2
  omega

/-- `tdiv2` is the library's division truncating toward zero. -/
theorem tdiv2_eq_tdiv (n : Int) : tdiv2 n = n.tdiv 2 := by
  unfold tdiv2
  split
  · rw [Int.tdiv_eq_ediv_of_nonneg (by assumption)]
  · rw [← Int.tdiv_eq_ediv_of_nonneg (by omega), Int.neg_tdiv, neg_neg]

theorem tdiv2_neg (n : Int) : tdiv2 (-n) = -(tdiv2 n) := by
  rw [tdiv2_eq_tdiv, tdiv2_eq_tdiv, Int.neg_tdiv]

theorem tdiv2_byte_range (v : Byte) : -64 ≤ tdiv2 v.toInt ∧ tdiv2 v.toInt ≤ 63 := by
  have h := toInt_byte_range v
  unfold tdiv2
  split <;> omega

theorem clamp_eq_max_min (n hi : Int) (h : 0 ≤ hi) : clamp n 0 hi = max 0 (min hi n) := by
  unfold clamp
  split
  · omega
  · split <;> omega

theorem clamp_range (n hi : Int) (h : 0 ≤ hi) : 0 ≤ clamp n 0 hi ∧ clamp n 0 hi ≤ hi := by
  rw [clamp_eq_max_min n hi h]; omega

@[simp] theorem xMax_eq : Config.xMax = 784 := rfl

@[simp] theorem yMax_eq : Config.yMax = 576 := rfl

/-- A position register holds exactly what is stored into it, as long as `W_POS` bits hold it. -/
theorem toInt_ofInt_pos (n : Int) (h0 : -32768 ≤ n) (h1 : n ≤ 32767) :
    (BitVec.ofInt 16 n).toInt = n := by
  rw [BitVec.toInt_ofInt]
  exact Int.bmod_eq_of_le (by omega) (by omega)

theorem toInt_ofInt_clamp (n hi : Int) (h0 : 0 ≤ hi) (h1 : hi ≤ 32767) :
    (BitVec.ofInt 16 (clamp n 0 hi)).toInt = clamp n 0 hi := by
  have h := clamp_range n hi h0
  exact toInt_ofInt_pos _ (by omega) (by omega)

end Sys2Proof.Machine
end

