-- ==== Sys2Proof/Laws/State.lean ====
section
/-! SUPPORT. One lemma per field per update of State, each true by unfolding the update once. -/

namespace Sys2Proof.Machine

/-! ### setCyc -/

@[simp] theorem setCyc_cyc (s : State) (c : Phase) : (s.setCyc c).cyc = c := rfl
@[simp] theorem setCyc_buf (s : State) (c : Phase) : (s.setCyc c).buf = s.buf := rfl
@[simp] theorem setCyc_x (s : State) (c : Phase) : (s.setCyc c).x = s.x := rfl
@[simp] theorem setCyc_y (s : State) (c : Phase) : (s.setCyc c).y = s.y := rfl
@[simp] theorem setCyc_btn (s : State) (c : Phase) : (s.setCyc c).btn = s.btn := rfl
@[simp] theorem setCyc_eoi (s : State) (c : Phase) : (s.setCyc c).eoi = s.eoi := rfl
@[simp] theorem setCyc_wires (s : State) (c : Phase) : (s.setCyc c).wires = s.wires := rfl
@[simp] theorem setCyc_input (s : State) (c : Phase) : (s.setCyc c).input = s.input := rfl
@[simp] theorem setCyc_drawn (s : State) (c : Phase) : (s.setCyc c).drawn = s.drawn := rfl

/-! ### setBuf -/

@[simp] theorem setBuf_cyc (s : State) (i : Phase) (v : Byte) : (s.setBuf i v).cyc = s.cyc := rfl
@[simp] theorem setBuf_buf (s : State) (i : Phase) (v : Byte) : (s.setBuf i v).buf = s.buf.write v i := rfl
@[simp] theorem setBuf_x (s : State) (i : Phase) (v : Byte) : (s.setBuf i v).x = s.x := rfl
@[simp] theorem setBuf_y (s : State) (i : Phase) (v : Byte) : (s.setBuf i v).y = s.y := rfl
@[simp] theorem setBuf_btn (s : State) (i : Phase) (v : Byte) : (s.setBuf i v).btn = s.btn := rfl
@[simp] theorem setBuf_eoi (s : State) (i : Phase) (v : Byte) : (s.setBuf i v).eoi = s.eoi := rfl
@[simp] theorem setBuf_wires (s : State) (i : Phase) (v : Byte) : (s.setBuf i v).wires = s.wires := rfl
@[simp] theorem setBuf_input (s : State) (i : Phase) (v : Byte) : (s.setBuf i v).input = s.input := rfl
@[simp] theorem setBuf_drawn (s : State) (i : Phase) (v : Byte) : (s.setBuf i v).drawn = s.drawn := rfl

/-! ### setX -/

@[simp] theorem setX_cyc (s : State) (n : Int) : (s.setX n).cyc = s.cyc := rfl
@[simp] theorem setX_buf (s : State) (n : Int) : (s.setX n).buf = s.buf := rfl
@[simp] theorem setX_x (s : State) (n : Int) : (s.setX n).x = BitVec.ofInt 16 n := rfl
@[simp] theorem setX_y (s : State) (n : Int) : (s.setX n).y = s.y := rfl
@[simp] theorem setX_btn (s : State) (n : Int) : (s.setX n).btn = s.btn := rfl
@[simp] theorem setX_eoi (s : State) (n : Int) : (s.setX n).eoi = s.eoi := rfl
@[simp] theorem setX_wires (s : State) (n : Int) : (s.setX n).wires = s.wires := rfl
@[simp] theorem setX_input (s : State) (n : Int) : (s.setX n).input = s.input := rfl
@[simp] theorem setX_drawn (s : State) (n : Int) : (s.setX n).drawn = s.drawn := rfl

/-! ### setY -/

@[simp] theorem setY_cyc (s : State) (n : Int) : (s.setY n).cyc = s.cyc := rfl
@[simp] theorem setY_buf (s : State) (n : Int) : (s.setY n).buf = s.buf := rfl
@[simp] theorem setY_x (s : State) (n : Int) : (s.setY n).x = s.x := rfl
@[simp] theorem setY_y (s : State) (n : Int) : (s.setY n).y = BitVec.ofInt 16 n := rfl
@[simp] theorem setY_btn (s : State) (n : Int) : (s.setY n).btn = s.btn := rfl
@[simp] theorem setY_eoi (s : State) (n : Int) : (s.setY n).eoi = s.eoi := rfl
@[simp] theorem setY_wires (s : State) (n : Int) : (s.setY n).wires = s.wires := rfl
@[simp] theorem setY_input (s : State) (n : Int) : (s.setY n).input = s.input := rfl
@[simp] theorem setY_drawn (s : State) (n : Int) : (s.setY n).drawn = s.drawn := rfl

/-! ### setBtn -/

@[simp] theorem setBtn_cyc (s : State) (v : BitVec 3) : (s.setBtn v).cyc = s.cyc := rfl
@[simp] theorem setBtn_buf (s : State) (v : BitVec 3) : (s.setBtn v).buf = s.buf := rfl
@[simp] theorem setBtn_x (s : State) (v : BitVec 3) : (s.setBtn v).x = s.x := rfl
@[simp] theorem setBtn_y (s : State) (v : BitVec 3) : (s.setBtn v).y = s.y := rfl
@[simp] theorem setBtn_btn (s : State) (v : BitVec 3) : (s.setBtn v).btn = v := rfl
@[simp] theorem setBtn_eoi (s : State) (v : BitVec 3) : (s.setBtn v).eoi = s.eoi := rfl
@[simp] theorem setBtn_wires (s : State) (v : BitVec 3) : (s.setBtn v).wires = s.wires := rfl
@[simp] theorem setBtn_input (s : State) (v : BitVec 3) : (s.setBtn v).input = s.input := rfl
@[simp] theorem setBtn_drawn (s : State) (v : BitVec 3) : (s.setBtn v).drawn = s.drawn := rfl

/-! ### setEoi -/

@[simp] theorem setEoi_cyc (s : State) (v : Bool) : (s.setEoi v).cyc = s.cyc := rfl
@[simp] theorem setEoi_buf (s : State) (v : Bool) : (s.setEoi v).buf = s.buf := rfl
@[simp] theorem setEoi_x (s : State) (v : Bool) : (s.setEoi v).x = s.x := rfl
@[simp] theorem setEoi_y (s : State) (v : Bool) : (s.setEoi v).y = s.y := rfl
@[simp] theorem setEoi_btn (s : State) (v : Bool) : (s.setEoi v).btn = s.btn := rfl
@[simp] theorem setEoi_eoi (s : State) (v : Bool) : (s.setEoi v).eoi = v := rfl
@[simp] theorem setEoi_wires (s : State) (v : Bool) : (s.setEoi v).wires = s.wires := rfl
@[simp] theorem setEoi_input (s : State) (v : Bool) : (s.setEoi v).input = s.input := rfl
@[simp] theorem setEoi_drawn (s : State) (v : Bool) : (s.setEoi v).drawn = s.drawn := rfl

/-! ### driveSx -/

@[simp] theorem driveSx_cyc (s : State) (n : Int) : (s.driveSx n).cyc = s.cyc := rfl
@[simp] theorem driveSx_buf (s : State) (n : Int) : (s.driveSx n).buf = s.buf := rfl
@[simp] theorem driveSx_x (s : State) (n : Int) : (s.driveSx n).x = s.x := rfl
@[simp] theorem driveSx_y (s : State) (n : Int) : (s.driveSx n).y = s.y := rfl
@[simp] theorem driveSx_btn (s : State) (n : Int) : (s.driveSx n).btn = s.btn := rfl
@[simp] theorem driveSx_eoi (s : State) (n : Int) : (s.driveSx n).eoi = s.eoi := rfl
@[simp] theorem driveSx_wires (s : State) (n : Int) : (s.driveSx n).wires = { s.wires with sx := n } := rfl
@[simp] theorem driveSx_input (s : State) (n : Int) : (s.driveSx n).input = s.input := rfl
@[simp] theorem driveSx_drawn (s : State) (n : Int) : (s.driveSx n).drawn = s.drawn := rfl

/-! ### driveSy -/

@[simp] theorem driveSy_cyc (s : State) (n : Int) : (s.driveSy n).cyc = s.cyc := rfl
@[simp] theorem driveSy_buf (s : State) (n : Int) : (s.driveSy n).buf = s.buf := rfl
@[simp] theorem driveSy_x (s : State) (n : Int) : (s.driveSy n).x = s.x := rfl
@[simp] theorem driveSy_y (s : State) (n : Int) : (s.driveSy n).y = s.y := rfl
@[simp] theorem driveSy_btn (s : State) (n : Int) : (s.driveSy n).btn = s.btn := rfl
@[simp] theorem driveSy_eoi (s : State) (n : Int) : (s.driveSy n).eoi = s.eoi := rfl
@[simp] theorem driveSy_wires (s : State) (n : Int) : (s.driveSy n).wires = { s.wires with sy := n } := rfl
@[simp] theorem driveSy_input (s : State) (n : Int) : (s.driveSy n).input = s.input := rfl
@[simp] theorem driveSy_drawn (s : State) (n : Int) : (s.driveSy n).drawn = s.drawn := rfl

/-! ### driveXn -/

@[simp] theorem driveXn_cyc (s : State) (n : Int) : (s.driveXn n).cyc = s.cyc := rfl
@[simp] theorem driveXn_buf (s : State) (n : Int) : (s.driveXn n).buf = s.buf := rfl
@[simp] theorem driveXn_x (s : State) (n : Int) : (s.driveXn n).x = s.x := rfl
@[simp] theorem driveXn_y (s : State) (n : Int) : (s.driveXn n).y = s.y := rfl
@[simp] theorem driveXn_btn (s : State) (n : Int) : (s.driveXn n).btn = s.btn := rfl
@[simp] theorem driveXn_eoi (s : State) (n : Int) : (s.driveXn n).eoi = s.eoi := rfl
@[simp] theorem driveXn_wires (s : State) (n : Int) : (s.driveXn n).wires = { s.wires with xn := n } := rfl
@[simp] theorem driveXn_input (s : State) (n : Int) : (s.driveXn n).input = s.input := rfl
@[simp] theorem driveXn_drawn (s : State) (n : Int) : (s.driveXn n).drawn = s.drawn := rfl

/-! ### driveYn -/

@[simp] theorem driveYn_cyc (s : State) (n : Int) : (s.driveYn n).cyc = s.cyc := rfl
@[simp] theorem driveYn_buf (s : State) (n : Int) : (s.driveYn n).buf = s.buf := rfl
@[simp] theorem driveYn_x (s : State) (n : Int) : (s.driveYn n).x = s.x := rfl
@[simp] theorem driveYn_y (s : State) (n : Int) : (s.driveYn n).y = s.y := rfl
@[simp] theorem driveYn_btn (s : State) (n : Int) : (s.driveYn n).btn = s.btn := rfl
@[simp] theorem driveYn_eoi (s : State) (n : Int) : (s.driveYn n).eoi = s.eoi := rfl
@[simp] theorem driveYn_wires (s : State) (n : Int) : (s.driveYn n).wires = { s.wires with yn := n } := rfl
@[simp] theorem driveYn_input (s : State) (n : Int) : (s.driveYn n).input = s.input := rfl
@[simp] theorem driveYn_drawn (s : State) (n : Int) : (s.driveYn n).drawn = s.drawn := rfl

/-! ### releaseWires -/

@[simp] theorem releaseWires_cyc (s : State) : (s.releaseWires).cyc = s.cyc := rfl
@[simp] theorem releaseWires_buf (s : State) : (s.releaseWires).buf = s.buf := rfl
@[simp] theorem releaseWires_x (s : State) : (s.releaseWires).x = s.x := rfl
@[simp] theorem releaseWires_y (s : State) : (s.releaseWires).y = s.y := rfl
@[simp] theorem releaseWires_btn (s : State) : (s.releaseWires).btn = s.btn := rfl
@[simp] theorem releaseWires_eoi (s : State) : (s.releaseWires).eoi = s.eoi := rfl
@[simp] theorem releaseWires_wires (s : State) : (s.releaseWires).wires = Wires.idle := rfl
@[simp] theorem releaseWires_input (s : State) : (s.releaseWires).input = s.input := rfl
@[simp] theorem releaseWires_drawn (s : State) : (s.releaseWires).drawn = s.drawn := rfl

/-! ### present -/

@[simp] theorem present_cyc (s : State) (ps : List Pins) : (s.present ps).cyc = s.cyc := rfl
@[simp] theorem present_buf (s : State) (ps : List Pins) : (s.present ps).buf = s.buf := rfl
@[simp] theorem present_x (s : State) (ps : List Pins) : (s.present ps).x = s.x := rfl
@[simp] theorem present_y (s : State) (ps : List Pins) : (s.present ps).y = s.y := rfl
@[simp] theorem present_btn (s : State) (ps : List Pins) : (s.present ps).btn = s.btn := rfl
@[simp] theorem present_eoi (s : State) (ps : List Pins) : (s.present ps).eoi = s.eoi := rfl
@[simp] theorem present_wires (s : State) (ps : List Pins) : (s.present ps).wires = s.wires := rfl
@[simp] theorem present_input (s : State) (ps : List Pins) : (s.present ps).input = ps ++ s.input := rfl
@[simp] theorem present_drawn (s : State) (ps : List Pins) : (s.present ps).drawn = s.drawn := rfl

/-! ### takePins -/

@[simp] theorem takePins_cons (s : State) (p : Pins) (ps : List Pins) (h : s.input = p :: ps) :
    s.takePins = { s with input := ps } := by
  simp [State.takePins, h]

@[simp] theorem takePins_nil (s : State) (h : s.input = []) :
    s.takePins = { s with drawn := s.drawn + 1 } := by
  simp [State.takePins, h]

@[simp] theorem takePins_cyc (s : State) : s.takePins.cyc = s.cyc := by
  unfold State.takePins; split <;> rfl
@[simp] theorem takePins_buf (s : State) : s.takePins.buf = s.buf := by
  unfold State.takePins; split <;> rfl
@[simp] theorem takePins_x (s : State) : s.takePins.x = s.x := by
  unfold State.takePins; split <;> rfl
@[simp] theorem takePins_y (s : State) : s.takePins.y = s.y := by
  unfold State.takePins; split <;> rfl
@[simp] theorem takePins_btn (s : State) : s.takePins.btn = s.btn := by
  unfold State.takePins; split <;> rfl
@[simp] theorem takePins_eoi (s : State) : s.takePins.eoi = s.eoi := by
  unfold State.takePins; split <;> rfl
@[simp] theorem takePins_wires (s : State) : s.takePins.wires = s.wires := by
  unfold State.takePins; split <;> rfl

/-! ### reads of the position registers after an update -/

@[simp] theorem takePins_readX (s : State) : s.takePins.readX = s.readX := by simp [State.readX]

@[simp] theorem takePins_readY (s : State) : s.takePins.readY = s.readY := by simp [State.readY]

@[simp] theorem setCyc_readX (s : State) (c : Phase) : (s.setCyc c).readX = s.readX := rfl
@[simp] theorem setCyc_readY (s : State) (c : Phase) : (s.setCyc c).readY = s.readY := rfl
@[simp] theorem setBuf_readX (s : State) (i : Phase) (v : Byte) : (s.setBuf i v).readX = s.readX := rfl
@[simp] theorem setBuf_readY (s : State) (i : Phase) (v : Byte) : (s.setBuf i v).readY = s.readY := rfl
@[simp] theorem setBtn_readX (s : State) (v : BitVec 3) : (s.setBtn v).readX = s.readX := rfl
@[simp] theorem setBtn_readY (s : State) (v : BitVec 3) : (s.setBtn v).readY = s.readY := rfl
@[simp] theorem setEoi_readX (s : State) (v : Bool) : (s.setEoi v).readX = s.readX := rfl
@[simp] theorem setEoi_readY (s : State) (v : Bool) : (s.setEoi v).readY = s.readY := rfl
@[simp] theorem driveSx_readX (s : State) (n : Int) : (s.driveSx n).readX = s.readX := rfl
@[simp] theorem driveSx_readY (s : State) (n : Int) : (s.driveSx n).readY = s.readY := rfl
@[simp] theorem driveSy_readX (s : State) (n : Int) : (s.driveSy n).readX = s.readX := rfl
@[simp] theorem driveSy_readY (s : State) (n : Int) : (s.driveSy n).readY = s.readY := rfl
@[simp] theorem driveXn_readX (s : State) (n : Int) : (s.driveXn n).readX = s.readX := rfl
@[simp] theorem driveXn_readY (s : State) (n : Int) : (s.driveXn n).readY = s.readY := rfl
@[simp] theorem driveYn_readX (s : State) (n : Int) : (s.driveYn n).readX = s.readX := rfl
@[simp] theorem driveYn_readY (s : State) (n : Int) : (s.driveYn n).readY = s.readY := rfl
@[simp] theorem releaseWires_readX (s : State) : (s.releaseWires).readX = s.readX := rfl
@[simp] theorem releaseWires_readY (s : State) : (s.releaseWires).readY = s.readY := rfl
@[simp] theorem setX_readY (s : State) (n : Int) : (s.setX n).readY = s.readY := rfl
@[simp] theorem setY_readX (s : State) (n : Int) : (s.setY n).readX = s.readX := rfl

end Sys2Proof.Machine
end

