-- ==== Sys2Proof/Laws/Ops.lean ====
section
/-! SUPPORT. What each shared operation does, once: sequencing, the buffer, accepting a byte, completing a packet, and
the cases of one step. -/

namespace Sys2Proof.Machine

/-! ## Sequencing and the buffer -/

@[simp] theorem seq_next (s : State) (k : State → Host.Outcome State Fault Refusal) : seq (.next s) k = k s := rfl

theorem read_write (b : Buf) (v : Byte) (i j : Phase) :
    (b.write v i).read j = if j = i then v else b.read j := by
  cases i <;> cases j <;> rfl

/-! ## Accepting a byte -/

theorem fileByte_eq (c : Phase) (b : Byte) (s : State) :
    fileByte c b s = { s with cyc := c.next, buf := s.buf.write b c } := rfl

@[simp] theorem signalEoi_eq (s : State) : signalEoi s = { s with eoi := true } := rfl

@[simp] theorem clearEoi_eq (s : State) : clearEoi s = { s with eoi := false } := rfl

/-! ## Completing a packet -/

/-- The horizontal step of a packet, as one expression (`41_delta_decode.md` R73). -/
def stepX (status dx : Byte) : Int :=
  match xSelect status with
  | .sub => -(delta dx)
  | .add => delta dx
  | .ovf => tdiv2 (delta dx)

/-- The vertical step of a packet, as one expression (`41_delta_decode.md` R74). -/
def stepY (status dy : Byte) : Int :=
  match ySelect status with
  | .sub => -(delta dy)
  | .add => delta dy
  | .ovf => -(tdiv2 (delta dy))

/-- The horizontal step by the status byte's bits (`41_delta_decode.md` R73). -/
theorem stepX_eq (status dx : Byte) :
    stepX status dx = if status.getLsbD 6 then dx.toInt.tdiv 2
      else if status.getLsbD 4 then dx.toInt else -dx.toInt := by
  unfold stepX xSelect statusXO statusXS
  cases status.getLsbD 6 <;> cases status.getLsbD 4 <;> simp [tdiv2_eq_tdiv]

/-- The vertical step by the status byte's bits (`41_delta_decode.md` R74). -/
theorem stepY_eq (status dy : Byte) :
    stepY status dy = if status.getLsbD 7 then -(dy.toInt.tdiv 2)
      else if status.getLsbD 5 then dy.toInt else -dy.toInt := by
  unfold stepY ySelect statusYO statusYS
  cases status.getLsbD 7 <;> cases status.getLsbD 5 <;> simp [tdiv2_eq_tdiv]

theorem execXSlot_eq (status dx : Byte) (s : State) :
    execXSlot (xSelect status) dx s = .next (s.driveSx (stepX status dx)) := by
  unfold stepX; cases xSelect status <;> rfl

theorem execYSlot_eq (status dy : Byte) (s : State) :
    execYSlot (ySelect status) dy s = .next (s.driveSy (stepY status dy)) := by
  unfold stepY; cases ySelect status <;> rfl

/-- A stored clamp reads back as itself. -/
@[simp] theorem setX_clamp_readX (s : State) (n : Int) :
    (s.setX (clamp n 0 784)).readX = max 0 (min 784 n) := by
  rw [← clamp_eq_max_min n 784 (by decide)]
  exact toInt_ofInt_clamp n 784 (by decide) (by decide)

@[simp] theorem setY_clamp_readY (s : State) (n : Int) :
    (s.setY (clamp n 0 576)).readY = max 0 (min 576 n) := by
  rw [← clamp_eq_max_min n 576 (by decide)]
  exact toInt_ofInt_clamp n 576 (by decide) (by decide)

/-- What a completion leaves, in the words of the model's own operations. -/
def completed (b : Byte) (s : State) : State where
  cyc := .phase0
  buf := s.buf.write b .phase2
  x := BitVec.ofInt 16 (clamp (s.readX + stepX s.buf.b0 s.buf.b1) 0 Config.xMax)
  y := BitVec.ofInt 16 (clamp (s.readY + stepY s.buf.b0 b) 0 Config.yMax)
  btn := buttonFlags (statusButtons s.buf.b0)
  eoi := true
  wires := Wires.idle
  input := s.input
  drawn := s.drawn

theorem execRx2_eq_completed (b : Byte) (s : State) : execRx2 b s = .next (completed b s) := by
  simp only [execRx2, completePacket, execXSlot_eq, execYSlot_eq, seq_next, execAccx, execAccy, execClampx,
    execClampy, execBtn]
  rfl

theorem completed_readX (b : Byte) (s : State) :
    (completed b s).readX = clamp (s.readX + stepX s.buf.b0 s.buf.b1) 0 784 :=
  toInt_ofInt_clamp _ 784 (by decide) (by decide)

theorem completed_readY (b : Byte) (s : State) :
    (completed b s).readY = clamp (s.readY + stepY s.buf.b0 b) 0 576 :=
  toInt_ofInt_clamp _ 576 (by decide) (by decide)

/-- What the new `X` depends on, and nothing else. -/
theorem completed_x (b : Byte) (s : State) :
    (completed b s).x = BitVec.ofInt 16 (clamp (s.readX + stepX s.buf.b0 s.buf.b1) 0 784) := rfl

/-- What the new `Y` depends on, and nothing else. -/
theorem completed_y (b : Byte) (s : State) :
    (completed b s).y = BitVec.ofInt 16 (clamp (s.readY + stepY s.buf.b0 b) 0 576) := rfl

/-! ## One step -/

/-- Where a Byte event leads. -/
def acceptByte (b : Byte) (s : State) : State :=
  match s.cyc with
  | .phase0 => { s with cyc := .phase1, buf := s.buf.write b .phase0, eoi := true }
  | .phase1 => { s with cyc := .phase2, buf := s.buf.write b .phase1, eoi := true }
  | .phase2 => completed b s

/-- Where an event leads: the block runs on from every state. -/
def applyEvent (e : Event) (s : State) : State :=
  match e with
  | .reset => { State.reset with input := s.input, drawn := s.drawn }
  | .idle => { s with eoi := false }
  | .byte b => acceptByte b s

theorem acceptByte_phase0 (b : Byte) (s : State) (h : s.cyc = .phase0) :
    acceptByte b s = { s with cyc := .phase1, buf := { s.buf with b0 := b }, eoi := true } := by
  simp only [acceptByte, h]; rfl

theorem acceptByte_phase1 (b : Byte) (s : State) (h : s.cyc = .phase1) :
    acceptByte b s = { s with cyc := .phase2, buf := { s.buf with b1 := b }, eoi := true } := by
  simp only [acceptByte, h]; rfl

theorem acceptByte_phase2 (b : Byte) (s : State) (h : s.cyc = .phase2) :
    acceptByte b s = completed b s := by
  simp only [acceptByte, h]

@[simp] theorem applyEvent_reset (s : State) :
    applyEvent .reset s = { State.reset with input := s.input, drawn := s.drawn } := rfl

@[simp] theorem applyEvent_idle (s : State) : applyEvent .idle s = { s with eoi := false } := rfl

@[simp] theorem applyEvent_byte (b : Byte) (s : State) : applyEvent (.byte b) s = acceptByte b s := rfl

/-- The registers an accepted byte always leaves the same way, whatever the phase. -/
theorem acceptByte_common (b : Byte) (s : State) :
    (acceptByte b s).cyc = s.cyc.next ∧ (acceptByte b s).buf = s.buf.write b s.cyc ∧
    (acceptByte b s).eoi = true ∧ (acceptByte b s).input = s.input ∧ (acceptByte b s).drawn = s.drawn := by
  unfold acceptByte
  cases s.cyc <;> exact ⟨rfl, rfl, rfl, rfl, rfl⟩

/-- The event of a state whose list names the cycle's pins. -/
theorem event_cons (p : Pins) (ps : List Pins) (s : State) :
    State.event { s with input := p :: ps } = p.event := rfl

theorem exec_decodeEvent (e : Event) (s : State) : exec (decodeEvent s.cyc e) s = .next (applyEvent e s) := by
  cases e with
  | reset => cases s.cyc <;> rfl
  | idle => cases s.cyc <;> rfl
  | byte b =>
    cases h : s.cyc with
    | phase0 => simp [decodeEvent, exec, execRx0, fileByte_eq, Phase.next, acceptByte, h]
    | phase1 => simp [decodeEvent, exec, execRx1, fileByte_eq, Phase.next, acceptByte, h]
    | phase2 => rw [applyEvent_byte, acceptByte_phase2 b s h]; exact execRx2_eq_completed b s

/-- A step answers a next state, and this is which. -/
theorem step_eq_applyEvent (s : State) : step s = .next (applyEvent s.event s.takePins) := by
  have h := exec_decodeEvent s.event s.takePins
  rw [takePins_cyc] at h
  exact h

/-- What an answered step answers. -/
theorem step_next {s t : State} (h : step s = .next t) : t = applyEvent s.event s.takePins := by
  rw [step_eq_applyEvent] at h
  injection h with h
  exact h.symm

/-- The cases of one step: what it can do, and nothing else. -/
theorem step_cases {s t : State} (h : step s = .next t) :
    (s.event = .reset ∧ t = { State.reset with input := s.takePins.input, drawn := s.takePins.drawn }) ∨
    (s.event = .idle ∧ t = { s.takePins with eoi := false }) ∨
    (∃ b, s.event = .byte b ∧ s.cyc = .phase0 ∧
      t = { s.takePins with cyc := .phase1, buf := { s.buf with b0 := b }, eoi := true }) ∨
    (∃ b, s.event = .byte b ∧ s.cyc = .phase1 ∧
      t = { s.takePins with cyc := .phase2, buf := { s.buf with b1 := b }, eoi := true }) ∨
    (∃ b, s.event = .byte b ∧ s.cyc = .phase2 ∧ t = completed b s.takePins) := by
  have ht := step_next h
  cases he : s.event with
  | reset => rw [he] at ht; exact .inl ⟨rfl, ht⟩
  | idle => rw [he] at ht; exact .inr (.inl ⟨rfl, ht⟩)
  | byte b =>
    rw [he, applyEvent_byte] at ht
    cases hc : s.cyc with
    | phase0 =>
      rw [acceptByte_phase0 b _ (by simp [hc]), takePins_buf] at ht
      exact .inr (.inr (.inl ⟨b, rfl, rfl, ht⟩))
    | phase1 =>
      rw [acceptByte_phase1 b _ (by simp [hc]), takePins_buf] at ht
      exact .inr (.inr (.inr (.inl ⟨b, rfl, rfl, ht⟩)))
    | phase2 =>
      rw [acceptByte_phase2 b _ (by simp [hc])] at ht
      exact .inr (.inr (.inr (.inr ⟨b, rfl, rfl, ht⟩)))

/-! ## Runs -/

theorem run_succ (n : Nat) (s : State) :
    Sys2Proof.core.run (n + 1) s = Sys2Proof.core.run n (applyEvent s.event s.takePins) := by
  have h : Sys2Proof.core.step s = .next (applyEvent s.event s.takePins) := step_eq_applyEvent s
  simp only [Host.Core.run, h]

/-- An event is applied to the registers; the pins to come are carried along. -/
theorem applyEvent_input (e : Event) (s : State) : (applyEvent e s).input = s.input := by
  cases e with
  | reset => rfl
  | idle => rfl
  | byte b => exact (acceptByte_common b s).2.2.2.1

/-- An event does not look at the pins to come. -/
theorem applyEvent_with_input (e : Event) (s : State) (ps qs : List Pins) :
    { applyEvent e { s with input := ps } with input := qs } = applyEvent e { s with input := qs } := by
  cases e with
  | reset => rfl
  | idle => rfl
  | byte b => simp only [applyEvent_byte, acceptByte]; cases s.cyc <;> rfl

/-- One cycle of a listed stimulus: its event, then the rest. -/
theorem runPins_cons (p : Pins) (ps : List Pins) (s : State) :
    runPins (p :: ps) s = runPins ps (applyEvent p.event { s with input := ps }) := by
  show Sys2Proof.core.run (ps.length + 1) { s with input := p :: ps } = Sys2Proof.core.run ps.length _
  rw [run_succ, event_cons, takePins_cons { s with input := p :: ps } p ps rfl, applyEvent_with_input]

theorem runPins_nil (s : State) : runPins [] s = .next { s with input := [] } := rfl

/-- The states a listed stimulus passes through, one by one. -/
theorem trace_cons (p : Pins) (ps : List Pins) (s : State) :
    trace (ps.length + 1) { s with input := p :: ps } =
      applyEvent p.event { s with input := ps } ::
        trace ps.length { applyEvent p.event { s with input := ps } with input := ps } := by
  rw [applyEvent_with_input]
  simp only [trace, step_eq_applyEvent, event_cons, takePins_cons { s with input := p :: ps } p ps rfl]

end Sys2Proof.Machine
end

