-- ==== Sys2Proof/Laws/PerInstr.lean ====
section
/-! SUPPORT. The per-instruction family: every operation is well formed, and where its code is a packet, that packet
falls under the operation's own row of the opcode table, match, mask and operand fields (`30_encoding.md` R52, R53,
R54). -/

namespace Sys2Proof.Laws.RowMatch

/-- The operation is well formed, and its packet code (if it has one) falls under its row. -/
def Statement (i : Instr) : Prop :=
  i.wellFormed = true ∧ ∀ p : PacketWord, encode i = .packet p → packetMatchesRow p i = true

/-- A masked packed word depends on the status byte alone when the mask has no bit above it. -/
theorem and_status (s x y : Byte) (k : Byte) :
    packPacket s x y &&& k.setWidth 24 = (s &&& k).setWidth 24 := by
  apply BitVec.eq_of_getLsbD_eq
  intro i hi
  simp only [BitVec.getLsbD_and, BitVec.getLsbD_setWidth, packPacket_getLsbD, hi, decide_true, Bool.true_and]
  split
  · rfl
  · simp [BitVec.getLsbD_of_ge k i (by omega)]

theorem and_00 (s x y : Byte) : packPacket s x y &&& 0x000000#24 = 0x000000#24 := BitVec.and_zero

theorem and_50 (s x y : Byte) : packPacket s x y &&& 0x000050#24 = (s &&& 0x50#8).setWidth 24 :=
  and_status s x y 0x50#8

theorem and_40 (s x y : Byte) : packPacket s x y &&& 0x000040#24 = (s &&& 0x40#8).setWidth 24 :=
  and_status s x y 0x40#8

theorem and_A0 (s x y : Byte) : packPacket s x y &&& 0x0000A0#24 = (s &&& 0xA0#8).setWidth 24 :=
  and_status s x y 0xA0#8

theorem and_80 (s x y : Byte) : packPacket s x y &&& 0x000080#24 = (s &&& 0x80#8).setWidth 24 :=
  and_status s x y 0x80#8

/-- The button bits of a status byte made of them. -/
theorem buttons_setWidth (low : BitVec 3) : statusButtons (low.setWidth 8) = low := by
  apply BitVec.eq_of_getLsbD_eq
  intro i hi
  simp [statusButtons, hi, show i < 8 by omega]

theorem rx0 (b : Byte) : Statement (.rx0 b) := ⟨rfl, nofun⟩

theorem rx1 (b : Byte) : Statement (.rx1 b) := ⟨rfl, nofun⟩

theorem rx2 (b : Byte) : Statement (.rx2 b) := ⟨rfl, nofun⟩

theorem nopi : Statement .nopi := ⟨rfl, nofun⟩

theorem rst : Statement .rst := ⟨rfl, nofun⟩

theorem xsub (dx : Byte) : Statement (.xsub dx) := by
  refine ⟨rfl, fun p h => ?_⟩
  injection h with h; subst h
  simp [packetMatchesRow, packetRow, packetOperandsAre, and_50]

theorem xadd (dx : Byte) : Statement (.xadd dx) := by
  refine ⟨rfl, fun p h => ?_⟩
  injection h with h; subst h
  simp [packetMatchesRow, packetRow, packetOperandsAre, and_50]

theorem xovf (dx : Byte) : Statement (.xovf dx) := by
  refine ⟨rfl, fun p h => ?_⟩
  injection h with h; subst h
  simp [packetMatchesRow, packetRow, packetOperandsAre, and_40]

theorem ysub (dy : Byte) : Statement (.ysub dy) := by
  refine ⟨rfl, fun p h => ?_⟩
  injection h with h; subst h
  simp [packetMatchesRow, packetRow, packetOperandsAre, and_A0]

theorem yadd (dy : Byte) : Statement (.yadd dy) := by
  refine ⟨rfl, fun p h => ?_⟩
  injection h with h; subst h
  simp [packetMatchesRow, packetRow, packetOperandsAre, and_A0]

theorem yovf (dy : Byte) : Statement (.yovf dy) := by
  refine ⟨rfl, fun p h => ?_⟩
  injection h with h; subst h
  simp [packetMatchesRow, packetRow, packetOperandsAre, and_80]

theorem accx : Statement .accx := by
  refine ⟨rfl, fun p h => ?_⟩
  injection h with h; subst h
  simp [packetMatchesRow, packetRow, packetOperandsAre]

theorem accy : Statement .accy := by
  refine ⟨rfl, fun p h => ?_⟩
  injection h with h; subst h
  simp [packetMatchesRow, packetRow, packetOperandsAre]

theorem clampx : Statement .clampx := by
  refine ⟨rfl, fun p h => ?_⟩
  injection h with h; subst h
  simp [packetMatchesRow, packetRow, packetOperandsAre]

theorem clampy : Statement .clampy := by
  refine ⟨rfl, fun p h => ?_⟩
  injection h with h; subst h
  simp [packetMatchesRow, packetRow, packetOperandsAre]

theorem btn (low : BitVec 3) : Statement (.btn low) := by
  refine ⟨rfl, fun p h => ?_⟩
  injection h with h; subst h
  simp [packetMatchesRow, packetRow, packetOperandsAre, buttons_setWidth]

end Sys2Proof.Laws.RowMatch
end

