-- ==== Sys2Proof/Tests/Slice0.lean ====
section
/-! SUPPORT. The model's own tests. Every expected value is the spec's: the examples of its rules and the tables and
vectors of `95_test_vectors.md`, named at each test. Then the witnesses of the statements' hypotheses. -/

namespace Sys2Proof.Tests

open Sys2Proof Sys2Proof.Machine

/-! ## Helpers -/

/-- The state an outcome answers, as data that can be compared. -/
def nextOf (o : Host.Outcome State Fault Refusal) : Option State :=
  match o with
  | .next s => some s
  | .fault _ => none
  | .refused _ => none

/-- A state about to complete a packet: two bytes stored, position given, everything else as after reset. -/
def midPacket (x y : Int) (status dx : Byte) : State :=
  { State.reset with cyc := .phase2, buf := ⟨status, dx, 0x00#8⟩, x := BitVec.ofInt 16 x, y := BitVec.ofInt 16 y }

/-- The reset state with these steps on the wires. -/
def wired (w : Wires) : State := { State.reset with wires := w }

/-- What a reader of the ports sees of an outcome: position and buttons. -/
def seen (o : Host.Outcome State Fault Refusal) : Option (Int × Int × BitVec 3) :=
  (nextOf o).map (fun t => (t.readX, t.readY, t.btn))

/-! ## Well-formedness: an ill-formed raw code for each check -/

theorem test_rawLength_refused : RawCode.wellFormed ⟨16, 0⟩ = false := by decide
theorem test_rawValue_refused : RawCode.wellFormed ⟨8, 256⟩ = false := by decide
theorem test_rawLength_named : decodeRaw .phase0 ⟨16, 0⟩ = .error (.badLength 16) := by decide
theorem test_rawValue_named : decodeRaw .phase0 ⟨8, 256⟩ = .error (.badValue 256) := by decide
theorem test_raw_packet_accepted : RawCode.wellFormed ⟨24, 0x050A00⟩ = true := by decide

/-! ## Decoding: words written out bit by bit from `30_encoding.md` R48, R50 and section 3 -/

theorem test_decode_rx0 : decodeEvent .phase0 (.byte 0b00011000#8) = .rx0 0x18#8 := by decide
theorem test_decode_rx1 : decodeEvent .phase1 (.byte 0b00010100#8) = .rx1 0x14#8 := by decide
theorem test_decode_rx2 : decodeEvent .phase2 (.byte 0b11101111#8) = .rx2 0xEF#8 := by decide
theorem test_decode_nopi : decodeEvent .phase1 (Pins.event ⟨false, false, 0xFF#8⟩) = .nopi := by decide
theorem test_decode_rst : decodeEvent .phase1 (Pins.event ⟨true, true, 0xFF#8⟩) = .rst := by decide

/-- `yyyyyyyy xxxxxxxx O0S0Amrl` with DX = 0x0A. -/
theorem test_decode_xsub : Instr.xsub 0x0A#8 ∈ decode (.packet 0b00000101_00001010_10101111#24) := by decide
/-- `yyyyyyyy xxxxxxxx O0S1Amrl` with DX = 0x14. -/
theorem test_decode_xadd : Instr.xadd 0x14#8 ∈ decode (.packet 0b00000000_00010100_10110000#24) := by decide
/-- `yyyyyyyy xxxxxxxx O1SsAmrl` with DX = 0xF7, with either value of the ignored bit. -/
theorem test_decode_xovf : Instr.xovf 0xF7#8 ∈ decode (.packet 0b00000000_11110111_01000000#24) ∧
    Instr.xovf 0xF7#8 ∈ decode (.packet 0b00000000_11110111_01010000#24) := by decide
/-- `yyyyyyyy xxxxxxxx 0o0sAmrl` with DY = 0x05. -/
theorem test_decode_ysub : Instr.ysub 0x05#8 ∈ decode (.packet 0b00000101_00001010_01011111#24) := by decide
/-- `yyyyyyyy xxxxxxxx 0o1sAmrl` with DY = 0x14. -/
theorem test_decode_yadd : Instr.yadd 0x14#8 ∈ decode (.packet 0b00010100_00000000_01110000#24) := by decide
/-- `yyyyyyyy xxxxxxxx 1oSsAmrl` with DY = 0xF7, with either value of the ignored bit. -/
theorem test_decode_yovf : Instr.yovf 0xF7#8 ∈ decode (.packet 0b11110111_00000000_10000000#24) ∧
    Instr.yovf 0xF7#8 ∈ decode (.packet 0b11110111_00000000_10100000#24) := by decide
theorem test_decode_accx : Instr.accx ∈ decode (.packet 0b11111111_11111111_11111111#24) := by decide
theorem test_decode_accy : Instr.accy ∈ decode (.packet 0b11111111_11111111_11111111#24) := by decide
theorem test_decode_clampx : Instr.clampx ∈ decode (.packet 0b11111111_11111111_11111111#24) := by decide
theorem test_decode_clampy : Instr.clampy ∈ decode (.packet 0b11111111_11111111_11111111#24) := by decide
/-- Status 0x0A: middle, right, left bits 0, 1, 0. -/
theorem test_decode_btn : Instr.btn 0b010#3 ∈ decode (.packet 0b00000100_00000011_00001010#24) := by decide
/-- The whole bundle of program P3's third packet (`95_test_vectors.md`): `P` = 0x9C9CD9. -/
theorem test_decode_bundle : decodePacket 0x9C9CD9#24 =
    [.xovf 0x9C#8, .yovf 0x9C#8, .accx, .accy, .clampx, .clampy, .btn 0b001#3] := by decide

/-- The table's own match values, read as words: the slot operations but YSUB are told apart (log 12). -/
theorem test_tableWord_slots :
    (decodeTableWord 24 0x000000, decodeTableWord 24 0x000010, decodeTableWord 24 0x000040) =
      (some (.xsub 0#8), some (.xadd 0#8), some (.xovf 0#8)) ∧
    (decodeTableWord 24 0x000020, decodeTableWord 24 0x000080) = (some (.yadd 0#8), some (.yovf 0#8)) := by decide
theorem test_tableWord_byte : decodeTableWord 8 0x18 = some (.rx0 0x18#8) ∧ decodeTableWord 0 0 = some .nopi ∧
    decodeTableWord 16 0 = none := by decide
/-- A packet placed after reset runs at the very next step (`95_test_vectors.md` V8: 40 F7 00 gives 396, 300, 111). -/
theorem test_withFetchWord_packet : seen (step (State.reset.withFetchWord 24 0x00F740)) = some (396, 300, 0b111#3) := by
  decide
theorem test_withFetchWord_byte :
    (nextOf (step (State.reset.withFetchWord 8 0x18))).map (fun t => (t.cyc, t.buf.b0)) = some (.phase1, 0x18#8) := by
  decide

/-! ## The operations -/

/-- R61's example. -/
theorem test_rx0 : nextOf (exec (.rx0 0x18#8) State.reset) =
    some { State.reset with cyc := .phase1, buf := ⟨0x18#8, 0x00#8, 0x00#8⟩, eoi := true } := by decide
/-- R62's example. -/
theorem test_rx1 :
    (nextOf (exec (.rx1 0x14#8) { State.reset with cyc := .phase1, buf := ⟨0x18#8, 0x00#8, 0x00#8⟩ })).map
      (fun t => (t.cyc, t.buf, t.readX, t.eoi)) = some (.phase2, ⟨0x18#8, 0x14#8, 0x00#8⟩, 400, true) := by decide
/-- R63's example. -/
theorem test_rx2 : nextOf (exec (.rx2 0x00#8) (midPacket 400 300 0x18#8 0x14#8)) =
    some { State.reset with buf := ⟨0x18#8, 0x14#8, 0x00#8⟩, x := 420#16, btn := 0b111#3, eoi := true } := by decide
/-- V43: the mixed packet F7 55 AA. -/
theorem test_rx2_mixed : seen (exec (.rx2 0xAA#8) (midPacket 400 300 0xF7#8 0x55#8)) = some (442, 343, 0b000#3) := by
  decide
/-- R67's example. -/
theorem test_nopi :
    nextOf (exec .nopi { State.reset with cyc := .phase1, buf := ⟨0x10#8, 0#8, 0#8⟩, eoi := true }) =
      some { State.reset with cyc := .phase1, buf := ⟨0x10#8, 0#8, 0#8⟩ } := by decide
/-- R122's example. -/
theorem test_rst :
    nextOf (exec .rst { State.reset with cyc := .phase2, buf := ⟨0x18#8, 0x14#8, 0#8⟩, x := 37#16, y := 576#16, btn := 0b101#3, eoi := true }) =
      some State.reset := by decide

/-- `95_test_vectors.md` 2.2, byte 0x80: the step that does not fit in 8 signed bits. -/
theorem test_xsub : (nextOf (exec (.xsub 0x80#8) State.reset)).map (fun t => t.wires.sx) = some 128 := by decide
theorem test_xadd : (nextOf (exec (.xadd 0x80#8) State.reset)).map (fun t => t.wires.sx) = some (-128) := by decide
/-- `95_test_vectors.md` S3b and 2.2: −9 halves to −4, not −5 and not 123; −1 to 0. -/
theorem test_xovf : (nextOf (exec (.xovf 0xF7#8) State.reset)).map (fun t => t.wires.sx) = some (-4) := by decide
theorem test_xovf_minus_one : (nextOf (exec (.xovf 0xFF#8) State.reset)).map (fun t => t.wires.sx) = some 0 := by decide
theorem test_ysub : (nextOf (exec (.ysub 0x80#8) State.reset)).map (fun t => t.wires.sy) = some 128 := by decide
theorem test_yadd : (nextOf (exec (.yadd 0x81#8) State.reset)).map (fun t => t.wires.sy) = some (-127) := by decide
theorem test_yovf : (nextOf (exec (.yovf 0xF7#8) State.reset)).map (fun t => t.wires.sy) = some 4 := by decide
theorem test_yovf_positive : (nextOf (exec (.yovf 0x7F#8) State.reset)).map (fun t => t.wires.sy) = some (-63) := by decide
/-- R85's example: 5 − 50. -/
theorem test_accx : (nextOf (exec .accx { wired ⟨-50, 0, 0, 0⟩ with x := 5#16 })).map (fun t => t.wires.xn) = some (-45) := by
  decide
/-- R86's example: 570 + 20. -/
theorem test_accy : (nextOf (exec .accy { wired ⟨0, 20, 0, 0⟩ with y := 570#16 })).map (fun t => t.wires.yn) = some 590 := by
  decide
/-- R88's corner cases: −1 stores 0, 785 stores 784, the bounds are kept. -/
theorem test_clampx : ((nextOf (exec .clampx (wired ⟨0, 0, -1, 0⟩))).map State.readX,
    (nextOf (exec .clampx (wired ⟨0, 0, 785, 0⟩))).map State.readX) = (some 0, some 784) := by decide
theorem test_clampx_bounds : ((nextOf (exec .clampx (wired ⟨0, 0, 0, 0⟩))).map State.readX,
    (nextOf (exec .clampx (wired ⟨0, 0, 784, 0⟩))).map State.readX) = (some 0, some 784) := by decide
/-- R89's corner cases. -/
theorem test_clampy : ((nextOf (exec .clampy (wired ⟨0, 0, 0, -1⟩))).map State.readY,
    (nextOf (exec .clampy (wired ⟨0, 0, 0, 577⟩))).map State.readY) = (some 0, some 576) := by decide
theorem test_clampy_bounds : ((nextOf (exec .clampy (wired ⟨0, 0, 0, 0⟩))).map State.readY,
    (nextOf (exec .clampy (wired ⟨0, 0, 0, 576⟩))).map State.readY) = (some 0, some 576) := by decide
/-- R95's example: status 0x09 gives 110. -/
theorem test_btn : (nextOf (exec (.btn (statusButtons 0x09#8)) State.reset)).map (fun t => t.btn) = some 0b110#3 := by decide
/-- The ports of that register: left released, right and middle pressed. -/
theorem test_btn_ports : (State.outputs { State.reset with btn := 0b110#3 }).btnLeft = false ∧
    (State.outputs { State.reset with btn := 0b110#3 }).btnRight = true ∧
    (State.outputs { State.reset with btn := 0b110#3 }).btnMiddle = true := by decide
/-- `PKT` and decimal deltas (R58, R59): `PKT 0x00, 10, 5` is three byte cycles. -/
theorem test_stimulus : stimulusPins [.pkt 0x00#8 (deltaByte 10) (deltaByte 5), .idle 2] =
    [Pins.rx 0x00#8, Pins.rx 0x0A#8, Pins.rx 0x05#8, Pins.idle, Pins.idle] := by decide

/-! ## Witnesses: every hypothesis of a statement is met by a concrete state and operands -/

/-- A listed byte in each phase (Rx0FilesTheStatusByte, Rx1FilesTheDeltaXByte, Rx2CompletesThePacket,
ByteStepFollowsTheProcedure, StepRunsTheDecodedOperation). -/
theorem witness_byteStep (c : Phase) : ∃ (s : State) (p : Pins) (rest : List Pins),
    s.input = p :: rest ∧ p.rst = false ∧ p.rxValid = true ∧ s.cyc = c :=
  ⟨{ State.reset with cyc := c, input := [Pins.rx 0x80#8] }, Pins.rx 0x80#8, [], rfl, rfl, rfl, rfl⟩

/-- No pins listed (StepRunsTheDecodedOperation). -/
theorem witness_noPins : State.reset.input = [] := rfl

/-- A packet for each of the six slot rows (the Xsub, Xadd, Xovf, Ysub, Yadd, Yovf statements, OverflowSignsAreOpposite). -/
theorem witness_slotBits :
    (0x000000#24).getLsbD 6 = false ∧ (0x000000#24).getLsbD 4 = false ∧ (0x000010#24).getLsbD 6 = false ∧
    (0x000010#24).getLsbD 4 = true ∧ (0x000040#24).getLsbD 6 = true ∧ (0x000050#24).getLsbD 6 = true ∧
    (0x000000#24).getLsbD 7 = false ∧ (0x000000#24).getLsbD 5 = false ∧ (0x000020#24).getLsbD 7 = false ∧
    (0x000020#24).getLsbD 5 = true ∧ (0x000080#24).getLsbD 7 = true ∧ (0x0000A0#24).getLsbD 7 = true := by decide

/-- Both ends of the step's range, inside the viewport (the Accx and Accy statements). -/
theorem witness_accumulate : (wired ⟨-128, -128, 0, 0⟩).InViewport ∧ (wired ⟨128, 128, 0, 0⟩).InViewport ∧
    -128 ≤ (wired ⟨-128, -128, 0, 0⟩).wires.sx ∧ (wired ⟨128, 128, 0, 0⟩).wires.sy ≤ 128 := by decide

/-- Each clause of the clamps at the values where the clauses meet, and a position at each bound (ClampxSaturatesX,
ClampySaturatesY). -/
theorem witness_clamp : (wired ⟨0, 0, -1, -1⟩).wires.xn < 0 ∧ 784 < (wired ⟨0, 0, 785, 577⟩).wires.xn ∧
    0 ≤ (wired ⟨0, 0, 784, 576⟩).wires.xn ∧ (wired ⟨0, 0, 784, 576⟩).wires.xn ≤ 784 ∧
    0 ≤ (wired ⟨0, 0, 0, 0⟩).wires.xn ∧ (wired ⟨0, 0, -1, -1⟩).wires.yn < 0 ∧
    576 < (wired ⟨0, 0, 785, 577⟩).wires.yn ∧ (wired ⟨0, 0, 784, 576⟩).wires.yn ≤ 576 := by decide
theorem witness_atLowerBound : State.readX { wired ⟨0, 0, 0, 0⟩ with x := 0#16, y := 0#16 } = 0 ∧
    State.readY { wired ⟨-1, -1, 0, 0⟩ with x := 0#16, y := 0#16 } = 0 ∧ (wired ⟨-1, -1, 0, 0⟩).wires.sx ≤ 0 := by decide
theorem witness_atUpperBound : State.readX { wired ⟨1, 1, 0, 0⟩ with x := 784#16, y := 576#16 } = 784 ∧
    State.readY { wired ⟨1, 1, 0, 0⟩ with x := 784#16, y := 576#16 } = 576 ∧ 0 ≤ (wired ⟨1, 1, 0, 0⟩).wires.sx := by decide

/-- An operation with an event code, one with a raw byte, one with a raw packet
(DecodeOfEncodeGivesTheOperationBack). -/
theorem witness_encode : encode (.rx1 0x14#8) = .event .phase1 (.byte 0x14#8) ∧
    encodeRaw (.rx1 0x14#8) = some ⟨8, 0x14⟩ ∧ encodeRaw (.yadd 0x14#8) = some ⟨24, 0x140020⟩ := by decide
theorem witness_encode_phase : ∀ (d : Phase) (e : Event), encode (.rx1 0x14#8) = .event d e → d = .phase1 := by
  intro d e h; injection h with h _; exact h.symm

/-- An ill-formed length, an ill-formed value, a well-formed raw code (OnlyIllFormedRawCodesAreRejected). -/
theorem witness_raw : RawCode.lengthOk ⟨23, 0⟩ = false ∧ RawCode.lengthOk ⟨24, 2 ^ 24⟩ = true ∧
    RawCode.valueOk ⟨24, 2 ^ 24⟩ = false ∧ RawCode.wellFormed ⟨24, 2 ^ 24 - 1⟩ = true := by decide

/-- A state that meets the invariant and steps, completing a packet (StepKeepsTheInvariant). -/
theorem witness_invariantStep : ∃ s t : State, s.Inv ∧ step s = .next t ∧ s.cyc = .phase2 :=
  ⟨{ midPacket 784 576 0x08#8 0x80#8 with input := [Pins.rx 0x80#8] }, _, by decide, step_eq_applyEvent _, rfl⟩

/-- A step for each event (PositionAndButtonsChangeOnlyAtCompletionOrReset, PhaseCountsModuloThree,
BufferIsWrittenAtThePhaseOnly, OutputPortsShowTheRegisters, StepSetsEoiExactlyForAByte,
EveryStepTakesOneSampleOfThePins). -/
theorem witness_events : State.event { State.reset with input := [Pins.idle] } = .idle ∧
    State.event { State.reset with input := [Pins.reset] } = .reset ∧
    State.event { State.reset with input := [Pins.rx 0x01#8] } = .byte 0x01#8 := by decide
theorem witness_step (s : State) : ∃ t : State, step s = .next t := ⟨_, step_eq_applyEvent s⟩
theorem witness_noCompletion :
    let s : State := { State.reset with cyc := .phase1, input := [Pins.rx 0x01#8] }
    ¬ (s.cyc = .phase2 ∧ ∃ b : Byte, s.event = .byte b) ∧ s.event ≠ .reset ∧ (s.cyc = .phase2 → s.event = .idle) := by
  refine ⟨?_, by decide, by decide⟩
  rintro ⟨h, _⟩; exact absurd h (by decide)

/-- Pins for each clause, with the pins that do not count set (PinsChooseTheEventByPriority, ResetForgetsThePast). -/
theorem witness_pins : (Pins.mk true true 0xAA#8).rst = true ∧ (Pins.mk false true 0xAA#8).rxValid = true ∧
    (Pins.mk false false 0xAA#8).rxValid = false := by decide

/-- A slot operation that answers (SlotOperationsChangeNoRegister, OperationsKeepThePinsToCome). -/
theorem witness_slotOperation : ∃ t : State, exec (.yovf 0x80#8) State.reset = .next t := ⟨_, rfl⟩

/-- Two different stimuli with the same bytes (IdleTimeChangesNothingButEoi). -/
theorem witness_strip : stripIdle [Pins.rx 0x10#8, Pins.idle, Pins.idle, Pins.rx 0x14#8] =
    stripIdle [Pins.idle, Pins.rx 0x10#8, Pins.rx 0x14#8] := by decide

/-- Two different states that agree on what is written (UnwrittenBufferEntriesReachNoOutput). -/
theorem witness_agreeWritten :
    State.AgreeWritten { State.reset with cyc := .phase1, buf := ⟨0x18#8, 0x00#8, 0x00#8⟩ }
      { State.reset with cyc := .phase1, buf := ⟨0x18#8, 0xFF#8, 0x55#8⟩ } := by
  refine ⟨rfl, rfl, rfl, rfl, rfl, fun i hi => ?_⟩
  cases i with
  | phase0 => rfl
  | phase1 => exact absurd hi (by decide)
  | phase2 => exact absurd hi (by decide)

/-- Two different states that agree so, step on the same pins, and complete a packet (StepKeepsAgreementOnWhatIsWritten). -/
theorem witness_agreeWrittenStep : ∃ s t s' t' : State, s.AgreeWritten t ∧ s.pins = t.pins ∧ step s = .next s' ∧
    step t = .next t' ∧ s.cyc = .phase2 ∧ s ≠ t := by
  refine ⟨{ midPacket 10 20 0x18#8 0x11#8 with input := [Pins.rx 0x01#8] },
    { midPacket 10 20 0x18#8 0x11#8 with buf := ⟨0x18#8, 0x11#8, 0xFF#8⟩, input := [Pins.rx 0x01#8] },
    _, _, ⟨rfl, rfl, rfl, rfl, rfl, fun i hi => ?_⟩, rfl, step_eq_applyEvent _, step_eq_applyEvent _, rfl, by decide⟩
  cases i with
  | phase0 => rfl
  | phase1 => rfl
  | phase2 => exact absurd hi (by decide)

/-- A stimulus without a Reset (FramingIsByCountAlone). -/
theorem witness_noReset : ∀ p ∈ [Pins.rx 0x00#8, Pins.idle, Pins.rx 0x08#8], p.isReset = false := by decide

/-- Phase 0 (PacketLineIsOneCompletion); a run that answers (RunsComposeInOrderOfArrival); an idle stimulus
(MaskedLineFreezesTheState). -/
theorem witness_phase0 : State.reset.cyc = .phase0 := rfl
theorem witness_run : ∃ t : State, runPins [Pins.idle] State.reset = .next t := ⟨_, runPins_cons _ _ _⟩
theorem witness_masked : [Pins.idle, Pins.idle] ≠ [] ∧ ∀ p ∈ [Pins.idle, Pins.idle], p.event = .idle := by decide

/-- Numbers for each clause of the halving rule, at the ends of its ranges (HalvingTruncatesTowardZero,
DecimalDeltasReadBack, ParametersAreLegal). -/
theorem witness_numbers : (0 : Int) ≤ 0 ∧ (-1 : Int) < 0 ∧ (-1 : Int) % 2 = 1 ∧ (-128 : Int) ≤ 127 ∧
    (127 : Int) ≤ 127 ∧ (-64 : Int) ≤ 63 ∧ (912 : Int) ≤ max Config.xMax Config.yMax + 128 := by decide

/-- Two different states that meet the hypotheses of both axes (AxesAreIndependent, ButtonsCarryNoHistory). -/
theorem witness_axes :
    let s := midPacket 10 20 0xF0#8 0x11#8
    let t := { midPacket 10 20 0xF8#8 0x11#8 with btn := 0b111#3 }
    s.x = t.x ∧ s.y = t.y ∧ s.buf.b1 = t.buf.b1 ∧ s.buf.b0.getLsbD 6 = t.buf.b0.getLsbD 6 ∧
    s.buf.b0.getLsbD 4 = t.buf.b0.getLsbD 4 ∧ s.buf.b0.getLsbD 7 = t.buf.b0.getLsbD 7 ∧
    s.buf.b0.getLsbD 5 = t.buf.b0.getLsbD 5 ∧ s.buf.b0.extractLsb' 0 3 = t.buf.b0.extractLsb' 0 3 ∧ s ≠ t := by decide

/-- A status byte that differs in all three ignored bits (IgnoredStatusBitsHaveNoEffect). -/
theorem witness_ignored : let s := midPacket 10 20 0xC0#8 0x11#8
    s.cyc = .phase2 ∧ ∀ i : Nat, i < 8 → i ≠ 3 → (i = 4 → s.buf.b0.getLsbD 6 = false) → (i = 5 → s.buf.b0.getLsbD 7 = false) →
      (0xF8#8).getLsbD i = s.buf.b0.getLsbD i := by decide

/-- Two states in order, and one at 0 with a step back (SaturationIsMonotoneAndForgets). -/
theorem witness_saturation :
    (wired ⟨-5, -5, 0, 0⟩).readX ≤ (wired ⟨7, 7, 0, 0⟩).readX ∧
    (wired ⟨-5, -5, 0, 0⟩).wires.sx ≤ (wired ⟨7, 7, 0, 0⟩).wires.sx ∧
    State.readX { wired ⟨-5, 0, 0, 0⟩ with x := 0#16 } = 0 := by decide

end Sys2Proof.Tests
end

/-! SUPPORT. Proofs of the statements about the scope of the model (`00_scope.md`): totality of the step, and the
parameters. -/

namespace Sys2Proof.Machine

/-! ## Totality (`00_scope.md` R8) -/

/-- The step as a function: it answers one state, and no other. -/
theorem step_eq_next_iff (s t : State) : step s = .next t ↔ t = applyEvent s.event s.takePins :=
  ⟨step_next, fun h => h ▸ step_eq_applyEvent s⟩

/-- Only RX2 is composed of other operations, so only there could an inner operation stop the outer one. -/
theorem exec_answers (i : Instr) (s : State) : ∃ t : State, exec i s = .next t := by
  cases i with
  | rx2 b => exact ⟨completed b s, execRx2_eq_completed b s⟩
  | _ => exact ⟨_, rfl⟩

/-- The output ports are a function of the state, so the one next state fixes them. -/
theorem step_existsUnique_outputs (s : State) :
    ∃! o : Outputs, ∃ t : State, step s = .next t ∧ t.outputs = o := by
  refine ⟨(applyEvent s.event s.takePins).outputs, ⟨_, step_eq_applyEvent s, rfl⟩, ?_⟩
  rintro o ⟨t, ht, rfl⟩
  rw [step_next ht]

/-- Settles O25: the step is the function `applyEvent` of the event and the state with its sample taken, and every
operation answers. -/
theorem everyStepAnswersOneNextState : Obligations.EveryStepAnswersOneNextState := by
  refine ⟨fun s => ?_, step_existsUnique_outputs, exec_answers⟩
  simp only [step_eq_next_iff, existsUnique_eq]

/-! ## Parameters (`00_scope.md` R4, R5, R6) -/

/-- `X` reads back every number that 16 bits hold. -/
theorem setX_readX (s : State) (n : Int) (h0 : -32768 ≤ n) (h1 : n ≤ 32767) : (s.setX n).readX = n :=
  toInt_ofInt_pos n h0 h1

/-- `Y` reads back every number that 16 bits hold. -/
theorem setY_readY (s : State) (n : Int) (h0 : -32768 ≤ n) (h1 : n ≤ 32767) : (s.setY n).readY = n :=
  toInt_ofInt_pos n h0 h1

/-- The largest sum an accumulator forms inside the viewport: the larger bound and the largest step. -/
theorem largestSum_eq : max Config.xMax Config.yMax + 128 = 912 := by decide

/-- Settles O51: the parameters by evaluation, and the read-back because 16 bits hold every sum from −128 to 912. -/
theorem parametersAreLegal : Obligations.ParametersAreLegal := by
  refine ⟨rfl, rfl, rfl, rfl, rfl, rfl, by decide, by decide, by decide, by decide, by decide, fun s n h0 h1 => ?_⟩
  rw [largestSum_eq] at h1
  exact ⟨setX_readX s n (by omega) (by omega), setY_readY s n (by omega) (by omega)⟩

end Sys2Proof.Machine

/-! SUPPORT. Proofs of the statements about the state (`10_state.md`): its reset values, its invariant, and what may
change when. -/

namespace Sys2Proof.Machine

/-! ## Where each event leads -/

theorem step_of_reset {s t : State} (h : step s = .next t) (he : s.event = .reset) :
    t = { State.reset with input := s.takePins.input, drawn := s.takePins.drawn } := by
  rw [step_next h, he, applyEvent_reset]

theorem step_of_idle {s t : State} (h : step s = .next t) (he : s.event = .idle) :
    t = { s.takePins with eoi := false } := by
  rw [step_next h, he, applyEvent_idle]

theorem step_of_byte {s t : State} {b : Byte} (h : step s = .next t) (he : s.event = .byte b) :
    t = acceptByte b s.takePins := by
  rw [step_next h, he, applyEvent_byte]

theorem step_of_completion {s t : State} {b : Byte} (h : step s = .next t) (hc : s.cyc = .phase2)
    (he : s.event = .byte b) : t = completed b s.takePins := by
  rw [step_of_byte h he, acceptByte_phase2 b _ (by rw [takePins_cyc, hc])]

/-- The frame of a step that neither completes a packet nor resets: position, buttons and wires stay. -/
theorem step_frame {s t : State} (h : step s = .next t)
    (hc : ¬ (s.cyc = .phase2 ∧ ∃ b : Byte, s.event = .byte b)) (hr : s.event ≠ .reset) :
    t.x = s.x ∧ t.y = s.y ∧ t.btn = s.btn ∧ t.wires = s.wires := by
  rcases step_cases h with ⟨he, -⟩ | ⟨-, rfl⟩ | ⟨b, -, -, rfl⟩ | ⟨b, -, -, rfl⟩ | ⟨b, he, hp, -⟩
  case inl => exact absurd he hr
  case inr.inr.inr.inr => exact absurd ⟨hp, b, he⟩ hc
  all_goals exact ⟨takePins_x s, takePins_y s, takePins_btn s, takePins_wires s⟩

/-! ## The reset state (`10_state.md` R26) -/

/-- Settles O28: each register by evaluation. -/
theorem resetStateHoldsTheResetValues : Obligations.ResetStateHoldsTheResetValues :=
  ⟨rfl, rfl, rfl, rfl, rfl, rfl, rfl, rfl, rfl, rfl⟩

/-! ## The invariant (`10_state.md` R16, R24) -/

/-- The invariant speaks of the position and the wires alone. -/
theorem inv_of_eq {s t : State} (hx : t.x = s.x) (hy : t.y = s.y) (hw : t.wires = s.wires) (h : s.Inv) :
    t.Inv := by
  simpa only [State.Inv, State.InViewport, State.WiresIdle, State.readX, State.readY, hx, hy, hw] using h

/-- Settles O27: the reset position lies in the viewport and the reset wires are idle. -/
theorem resetStateMeetsTheInvariant : Obligations.ResetStateMeetsTheInvariant := by
  unfold Obligations.ResetStateMeetsTheInvariant
  decide

/-- A completion clamps both positions and releases the wires, whatever state it starts from. -/
theorem completed_inv (b : Byte) (s : State) : (completed b s).Inv := by
  have hx := clamp_range (s.readX + stepX s.buf.b0 s.buf.b1) 784 (by decide)
  have hy := clamp_range (s.readY + stepY s.buf.b0 b) 576 (by decide)
  rw [← completed_readX] at hx
  rw [← completed_readY] at hy
  exact ⟨⟨hx.1, hx.2, hy.1, hy.2⟩, rfl⟩

/-- Settles O26: a reset and a completion establish the invariant, and every other step keeps what it speaks of. -/
theorem stepKeepsTheInvariant : Obligations.StepKeepsTheInvariant := by
  intro s t hs h
  by_cases hr : s.event = .reset
  · rw [step_of_reset h hr]
    exact inv_of_eq rfl rfl rfl resetStateMeetsTheInvariant
  · by_cases hc : s.cyc = .phase2 ∧ ∃ b : Byte, s.event = .byte b
    · obtain ⟨hp, b, he⟩ := hc
      rw [step_of_completion h hp he]
      exact completed_inv b s.takePins
    · obtain ⟨hx, hy, -, hw⟩ := step_frame h hc hr
      exact inv_of_eq hx hy hw hs

/-! ## What may change when (`10_state.md` R17, R12, R21) -/

/-- Settles O29: the frame of a step, but for the wires. -/
theorem positionAndButtonsChangeOnlyAtCompletionOrReset :
    Obligations.PositionAndButtonsChangeOnlyAtCompletionOrReset := by
  intro s t h hc hr
  obtain ⟨hx, hy, hb, -⟩ := step_frame h hc hr
  exact ⟨hx, hy, hb⟩

theorem toBits_cases (c : Phase) : c.toBits = 0#2 ∨ c.toBits = 1#2 ∨ c.toBits = 2#2 := by
  cases c with
  | phase0 => exact .inl rfl
  | phase1 => exact .inr (.inl rfl)
  | phase2 => exact .inr (.inr rfl)

/-- A Byte step advances the phase and fills the entry the phase named before. -/
theorem step_byte_cyc_buf {s t : State} {b : Byte} (h : step s = .next t) (he : s.event = .byte b) :
    t.cyc = s.cyc.next ∧ t.buf = s.buf.write b s.cyc := by
  obtain ⟨hcyc, hbuf, -⟩ := acceptByte_common b s.takePins
  rw [takePins_cyc] at hcyc hbuf
  rw [takePins_buf] at hbuf
  rw [step_of_byte h he]
  exact ⟨hcyc, hbuf⟩

/-- Settles O30: the phase has three values, and each event moves it as its rule says. -/
theorem phaseCountsModuloThree : Obligations.PhaseCountsModuloThree := by
  intro s t h
  refine ⟨toBits_cases s.cyc, fun b he => ?_, fun he => ?_, fun he => ?_⟩
  · obtain ⟨hcyc, hbuf⟩ := step_byte_cyc_buf h he
    rw [hcyc, hbuf, index_next, read_write, if_pos rfl]
    exact ⟨rfl, rfl⟩
  · rw [step_of_idle h he]
    exact takePins_cyc s
  · rw [step_of_reset h he]
    rfl

/-- Settles O50: the ports are the registers, so the frame of a step leaves only `eoi` to move. -/
theorem outputPortsShowTheRegisters : Obligations.OutputPortsShowTheRegisters := by
  refine fun s => ⟨rfl, rfl, fun t h hr hi => ?_⟩
  have hc : ¬ (s.cyc = .phase2 ∧ ∃ b : Byte, s.event = .byte b) := by
    rintro ⟨hp, b, he⟩
    rw [hi hp] at he
    cases he
  obtain ⟨hx, hy, hb, -⟩ := step_frame h hc hr
  simp only [State.outputs, hx, hy, hb]

/-! ## Completions (`10_state.md` R18, R19, R24) -/

/-- What the new `BTN` depends on, and nothing else. -/
theorem completed_btn (b : Byte) (s : State) : (completed b s).btn = ~~~(s.buf.b0.extractLsb' 0 3) := rfl

/-- Settles O48: a completion takes `BTN` from the status byte's low bits alone. -/
theorem buttonsCarryNoHistory : Obligations.ButtonsCarryNoHistory := by
  intro b c s t h
  refine ⟨completed b s, completed c t, execRx2_eq_completed b s, execRx2_eq_completed c t, ?_, completed_btn b s⟩
  rw [completed_btn, completed_btn, h]

/-- Settles O54: RX2 ends in the completed state; every other operation is one update of other fields. -/
theorem operationsKeepThePinsToCome : Obligations.OperationsKeepThePinsToCome := by
  intro i s t h
  cases i with
  | rx2 b =>
    have ht : completed b s = t := Host.Outcome.next.inj ((execRx2_eq_completed b s).symm.trans h)
    rw [← ht]
    exact ⟨rfl, rfl, fun _ _ => rfl⟩
  | _ =>
    injection h with ht
    rw [← ht]
    exact ⟨rfl, rfl, nofun⟩

end Sys2Proof.Machine

/-! SUPPORT. Proofs of the statements about the packet buffer and the stimulus (`20_memory.md`): what a step writes,
how runs compose, and framing by count. -/

namespace Sys2Proof.Machine

/-! ## The packet buffer (`20_memory.md` R31) -/

/-- Settles O31: a byte is written at the phase, idle keeps the buffer, and a reset loads the reset state's. -/
theorem bufferIsWrittenAtThePhaseOnly : Obligations.BufferIsWrittenAtThePhaseOnly := by
  intro s t h
  refine ⟨fun b he i => ?_, fun he => ?_, fun he i => ?_⟩
  · obtain ⟨-, hbuf⟩ := step_byte_cyc_buf h he
    rw [hbuf, read_write]
  · rw [step_of_idle h he]
    exact takePins_buf s
  · rw [step_of_reset h he]
    cases i <;> rfl

/-! ## Runs compose (`20_memory.md` R42) -/

/-- A run replaces what its state had listed, so it does not depend on it. -/
theorem runPins_with_input (ps qs : List Pins) (s : State) : runPins ps { s with input := qs } = runPins ps s := rfl

/-- The first event is applied to the state itself, whatever that state had listed. -/
theorem runPins_cons_applyEvent (p : Pins) (ps : List Pins) (s : State) :
    runPins (p :: ps) s = runPins ps (applyEvent p.event s) := by
  rw [runPins_cons, ← runPins_with_input ps s.input, applyEvent_with_input]

/-- The run of two stimuli in a row is the run of the second from where the first leads. -/
theorem runPins_append (ps qs : List Pins) (s : State) :
    runPins (ps ++ qs) s = seq (runPins ps s) (runPins qs) := by
  induction ps generalizing s with
  | nil => rw [List.nil_append, runPins_nil, seq_next, runPins_with_input qs [] s]
  | cons p ps ih => rw [List.cons_append, runPins_cons_applyEvent, runPins_cons_applyEvent, ih]

/-- Settles O39: the composition law, where the first run answers. -/
theorem runsComposeInOrderOfArrival : Obligations.RunsComposeInOrderOfArrival := by
  intro ps qs s t h
  rw [runPins_append, h, seq_next]

/-! ## Framing by count (`20_memory.md` R37) -/

/-- Without a reset, only a byte moves the phase, and it moves it by one modulo 3. -/
theorem applyEvent_index (p : Pins) (s : State) (hp : p.isReset = false) :
    (applyEvent p.event s).cyc.index = (s.cyc.index + if p.isByte then 1 else 0) % 3 := by
  cases he : p.event with
  | reset => simp [Pins.isReset, he] at hp
  | idle => simp [Pins.isByte, he, Nat.mod_eq_of_lt (index_lt s.cyc)]
  | byte b =>
    obtain ⟨hcyc, -⟩ := acceptByte_common b s
    simp [Pins.isByte, he, hcyc]

/-- A run without a reset answers, and its bytes alone, counted modulo 3, have moved the phase. -/
theorem runPins_index (ps : List Pins) (s : State) (hps : ∀ p ∈ ps, p.isReset = false) :
    ∃ t : State, runPins ps s = .next t ∧ t.cyc.index = (s.cyc.index + ps.countP Pins.isByte) % 3 := by
  induction ps generalizing s with
  | nil => exact ⟨_, runPins_nil s, (Nat.mod_eq_of_lt (index_lt s.cyc)).symm⟩
  | cons p ps ih =>
    obtain ⟨hp, hps⟩ := List.forall_mem_cons.mp hps
    obtain ⟨t, ht, hcyc⟩ := ih (applyEvent p.event s) hps
    refine ⟨t, (runPins_cons_applyEvent p ps s).trans ht, ?_⟩
    rw [hcyc, applyEvent_index p s hp, List.countP_cons]
    omega

/-- The operation that takes a byte is chosen by the phase's number, not by the byte (`30_encoding.md` R55). -/
theorem decodeEvent_byte (c : Phase) (b : Byte) :
    decodeEvent c (.byte b) = if c.index = 0 then .rx0 b else if c.index = 1 then .rx1 b else .rx2 b := by
  cases c <;> rfl

/-- A presented byte is taken in the phase the state is in. -/
theorem fetch_rx (b : Byte) (rest : List Pins) (s : State) :
    fetch { s with input := Pins.rx b :: rest } = decodeEvent s.cyc (.byte b) := rfl

/-- Settles O37: the reset phase is 0, so the phase after the run is the number of its bytes modulo 3. -/
theorem framingIsByCountAlone : Obligations.FramingIsByCountAlone := by
  intro ps b rest hps
  obtain ⟨t, ht, hcyc⟩ := runPins_index ps State.reset hps
  have hreset : State.reset.cyc.index = 0 := rfl
  rw [hreset, Nat.zero_add, List.countP_eq_length_filter] at hcyc
  exact ⟨t, ht, by rw [fetch_rx, decodeEvent_byte, hcyc]⟩

end Sys2Proof.Machine

/-! SUPPORT. Proofs of the statements about the encoding (`30_encoding.md`): the slot tables, the fixed operations, the
ignored fields, and how stimuli are written. -/

namespace Sys2Proof.Machine

/-! ## Selection by match and mask (`30_encoding.md` R52, R53, R54) -/

/-- A masked word matches when it agrees with the match on the mask's bits; `ones` lists them. -/
theorem and_eq_iff_on_ones (p m r : PacketWord) (ones : List Nat)
    (hm : ∀ i, i < 24 → m.getLsbD i = decide (i ∈ ones)) (hr : r &&& m = r) (hones : ∀ i ∈ ones, i < 24) :
    p &&& m = r ↔ ∀ i ∈ ones, p.getLsbD i = r.getLsbD i := by
  rw [and_eq_iff]
  rw [and_eq_iff] at hr
  constructor
  · intro h i hi
    have hbit := h i (hones i hi)
    rwa [hm i (hones i hi), decide_eq_true hi, Bool.and_true] at hbit
  · intro h i hi
    rw [← hr i hi, hm i hi]
    by_cases hmem : i ∈ ones
    · rw [h i hmem]
    · rw [decide_eq_false hmem, Bool.and_false, Bool.and_false]

theorem decodeXSlot_cases (p : PacketWord) :
    ∃ d : Byte, decodeXSlot p = .xsub d ∨ decodeXSlot p = .xadd d ∨ decodeXSlot p = .xovf d := by
  refine ⟨packetDX p, ?_⟩
  unfold decodeXSlot
  cases xSelect (packetStatus p) with
  | sub => exact .inl rfl
  | add => exact .inr (.inl rfl)
  | ovf => exact .inr (.inr rfl)

theorem decodeYSlot_cases (p : PacketWord) :
    ∃ d : Byte, decodeYSlot p = .ysub d ∨ decodeYSlot p = .yadd d ∨ decodeYSlot p = .yovf d := by
  refine ⟨packetDY p, ?_⟩
  unfold decodeYSlot
  cases ySelect (packetStatus p) with
  | sub => exact .inl rfl
  | add => exact .inr (.inl rfl)
  | ovf => exact .inr (.inr rfl)

/-- An operation of the X slot's kind can only be a packet's X slot. -/
theorem mem_decode_iff_xSlot {i : Instr} {d : Byte} (p : PacketWord) (hi : i = .xsub d ∨ i = .xadd d ∨ i = .xovf d) :
    i ∈ decode (.packet p) ↔ decodeXSlot p = i := by
  obtain ⟨e, hy⟩ := decodeYSlot_cases p
  rw [mem_decode_packet, eq_comm (a := i)]
  rcases hi with rfl | rfl | rfl <;> rcases hy with hy | hy | hy <;> simp [hy]

/-- An operation of the Y slot's kind can only be a packet's Y slot. -/
theorem mem_decode_iff_ySlot {i : Instr} {d : Byte} (p : PacketWord) (hi : i = .ysub d ∨ i = .yadd d ∨ i = .yovf d) :
    i ∈ decode (.packet p) ↔ decodeYSlot p = i := by
  obtain ⟨e, hx⟩ := decodeXSlot_cases p
  rw [mem_decode_packet, or_left_comm, eq_comm (a := i) (b := decodeYSlot p)]
  rcases hi with rfl | rfl | rfl <;> rcases hx with hx | hx | hx <;> simp [hx]

/-- The X slot's three rows (`30_encoding.md` R52), by the word's bits. -/
theorem decodeXSlot_eq_iff (p : PacketWord) (d : Byte) :
    (decodeXSlot p = .xsub d ↔ (p.getLsbD 6 = false ∧ p.getLsbD 4 = false) ∧ packetDX p = d) ∧
    (decodeXSlot p = .xadd d ↔ (p.getLsbD 6 = false ∧ p.getLsbD 4 = true) ∧ packetDX p = d) ∧
    (decodeXSlot p = .xovf d ↔ p.getLsbD 6 = true ∧ packetDX p = d) := by
  rw [decodeXSlot_eq]
  cases p.getLsbD 6 <;> cases p.getLsbD 4 <;> simp

/-- The Y slot's three rows (`30_encoding.md` R53), by the word's bits. -/
theorem decodeYSlot_eq_iff (p : PacketWord) (d : Byte) :
    (decodeYSlot p = .ysub d ↔ (p.getLsbD 7 = false ∧ p.getLsbD 5 = false) ∧ packetDY p = d) ∧
    (decodeYSlot p = .yadd d ↔ (p.getLsbD 7 = false ∧ p.getLsbD 5 = true) ∧ packetDY p = d) ∧
    (decodeYSlot p = .yovf d ↔ p.getLsbD 7 = true ∧ packetDY p = d) := by
  rw [decodeYSlot_eq]
  cases p.getLsbD 7 <;> cases p.getLsbD 5 <;> simp

/-- The X rows' matches and masks are the bits they test. -/
theorem xRows_match_iff (p : PacketWord) :
    (p &&& 0x000050#24 = 0x000000#24 ↔ p.getLsbD 6 = false ∧ p.getLsbD 4 = false) ∧
    (p &&& 0x000050#24 = 0x000010#24 ↔ p.getLsbD 6 = false ∧ p.getLsbD 4 = true) ∧
    (p &&& 0x000040#24 = 0x000040#24 ↔ p.getLsbD 6 = true) := by
  rw [and_eq_iff_on_ones p 0x000050#24 0x000000#24 [6, 4] (by decide) (by decide) (by decide),
    and_eq_iff_on_ones p 0x000050#24 0x000010#24 [6, 4] (by decide) (by decide) (by decide),
    and_eq_iff_on_ones p 0x000040#24 0x000040#24 [6] (by decide) (by decide) (by decide)]
  simp

/-- The Y rows' matches and masks are the bits they test. -/
theorem yRows_match_iff (p : PacketWord) :
    (p &&& 0x0000A0#24 = 0x000000#24 ↔ p.getLsbD 7 = false ∧ p.getLsbD 5 = false) ∧
    (p &&& 0x0000A0#24 = 0x000020#24 ↔ p.getLsbD 7 = false ∧ p.getLsbD 5 = true) ∧
    (p &&& 0x000080#24 = 0x000080#24 ↔ p.getLsbD 7 = true) := by
  rw [and_eq_iff_on_ones p 0x0000A0#24 0x000000#24 [7, 5] (by decide) (by decide) (by decide),
    and_eq_iff_on_ones p 0x0000A0#24 0x000020#24 [7, 5] (by decide) (by decide) (by decide),
    and_eq_iff_on_ones p 0x000080#24 0x000080#24 [7] (by decide) (by decide) (by decide)]
  simp

/-- Settles O18: a slot operation is in the bundle only as its own slot, and both the slot and the row test the same
bits of the word. -/
theorem slotSelectionIsTheTable : Obligations.SlotSelectionIsTheTable := by
  intro p d
  obtain ⟨xsub, xadd, xovf⟩ := decodeXSlot_eq_iff p d
  obtain ⟨ysub, yadd, yovf⟩ := decodeYSlot_eq_iff p d
  obtain ⟨xsubRow, xaddRow, xovfRow⟩ := xRows_match_iff p
  obtain ⟨ysubRow, yaddRow, yovfRow⟩ := yRows_match_iff p
  rw [xsubRow, xaddRow, xovfRow, ysubRow, yaddRow, yovfRow]
  exact ⟨(mem_decode_iff_xSlot p (.inl rfl)).trans xsub,
    (mem_decode_iff_xSlot p (.inr (.inl rfl))).trans xadd,
    (mem_decode_iff_xSlot p (.inr (.inr rfl))).trans xovf,
    (mem_decode_iff_ySlot p (.inl rfl)).trans ysub,
    (mem_decode_iff_ySlot p (.inr (.inl rfl))).trans yadd,
    (mem_decode_iff_ySlot p (.inr (.inr rfl))).trans yovf⟩

/-- Settles O19: the bundle is written out by `decodePacket`, and each slot is one of its three operations. -/
theorem everyPacketPerformsTheFixedOperations : Obligations.EveryPacketPerformsTheFixedOperations := by
  intro p
  refine ⟨decodeXSlot p, decodeYSlot p, ?_, decodeXSlot_cases p, decodeYSlot_cases p⟩
  rw [← packetStatus_buttons]
  rfl

/-! ## Ignored fields (`30_encoding.md` R56) -/

/-- Bit 4 of the status byte counts only where bit 6 is clear. -/
theorem stepX_congr {a c : Byte} (dx : Byte) (hXO : a.getLsbD 6 = c.getLsbD 6)
    (hXS : c.getLsbD 6 = false → a.getLsbD 4 = c.getLsbD 4) : stepX a dx = stepX c dx := by
  rw [stepX_eq, stepX_eq, hXO]
  cases h : c.getLsbD 6 with
  | false => rw [hXS h]
  | true => rfl

/-- Bit 5 of the status byte counts only where bit 7 is clear. -/
theorem stepY_congr {a c : Byte} (dy : Byte) (hYO : a.getLsbD 7 = c.getLsbD 7)
    (hYS : c.getLsbD 7 = false → a.getLsbD 5 = c.getLsbD 5) : stepY a dy = stepY c dy := by
  rw [stepY_eq, stepY_eq, hYO]
  cases h : c.getLsbD 7 with
  | false => rw [hYS h]
  | true => rfl

theorem statusButtons_congr {a c : Byte} (h : ∀ i, i < 3 → a.getLsbD i = c.getLsbD i) :
    statusButtons a = statusButtons c := by
  apply BitVec.eq_of_getLsbD_eq
  intro i hi
  simp only [statusButtons, BitVec.getLsbD_extractLsb', Nat.zero_add, h i hi]

/-- A completion reads the status byte only through the two steps and the buttons. -/
theorem completed_with_status (b a : Byte) (s : State) (hx : stepX a s.buf.b1 = stepX s.buf.b0 s.buf.b1)
    (hy : stepY a b = stepY s.buf.b0 b) (hbtn : statusButtons a = statusButtons s.buf.b0) :
    completed b { s with buf := { s.buf with b0 := a } } =
      { completed b s with buf := { (completed b s).buf with b0 := a } } := by
  simp only [completed, State.readX, State.readY, hx, hy, hbtn]
  rfl

/-- Settles O47: the steps and the buttons do not read the ignored bits, and RX2 always answers. -/
theorem ignoredStatusBitsHaveNoEffect : Obligations.IgnoredStatusBitsHaveNoEffect := by
  intro b a s _ hbits
  have hx : stepX a s.buf.b1 = stepX s.buf.b0 s.buf.b1 :=
    stepX_congr _ (hbits 6 (by decide) (by decide) nofun nofun)
      fun hXO => hbits 4 (by decide) (by decide) (fun _ => hXO) nofun
  have hy : stepY a b = stepY s.buf.b0 b :=
    stepY_congr _ (hbits 7 (by decide) (by decide) nofun nofun)
      fun hYO => hbits 5 (by decide) (by decide) nofun fun _ => hYO
  have hbtn : statusButtons a = statusButtons s.buf.b0 :=
    statusButtons_congr fun i hi => hbits i (by omega) (by omega) (by omega) (by omega)
  exact ⟨_, _, execRx2_eq_completed b s, execRx2_eq_completed b _, completed_with_status b a s hx hy hbtn⟩

/-! ## Written stimuli (`30_encoding.md` R57, R58, R59) -/

/-- A listed byte is accepted. -/
theorem runPins_rx_cons (b : Byte) (ps : List Pins) (s : State) :
    runPins (Pins.rx b :: ps) s = runPins ps (acceptByte b s) := runPins_cons_applyEvent (Pins.rx b) ps s

/-- A completion carries the pins to come along, and does not look at them. -/
theorem completed_with_input (b : Byte) (s : State) (ps : List Pins) :
    { completed b s with input := ps } = completed b { s with input := ps } := rfl

/-- Settles O38: three accepted bytes from phase 0, the third of which completes the packet. -/
theorem packetLineIsOneCompletion : Obligations.PacketLineIsOneCompletion := by
  intro a x y s hs
  calc runPins (StimulusLine.pkt a x y).pins s
      = runPins [] (acceptByte y (acceptByte x (acceptByte a s))) := by
        rw [StimulusLine.pins, runPins_rx_cons, runPins_rx_cons, runPins_rx_cons]
    _ = runPins [] (completed y { s with cyc := .phase2, buf := ⟨a, x, s.buf.b2⟩, eoi := true }) := by
        rw [acceptByte_phase0 a s hs, acceptByte_phase1 x _ rfl, acceptByte_phase2 y _ rfl]
    _ = exec (.rx2 y) { s with cyc := .phase2, buf := ⟨a, x, s.buf.b2⟩, eoi := true, input := [] } := by
        rw [runPins_nil, completed_with_input]
        exact (execRx2_eq_completed y _).symm

/-- A byte holds every number of its range. -/
theorem toInt_deltaByte (n : Int) (h0 : -128 ≤ n) (h1 : n ≤ 127) : (deltaByte n).toInt = n := by
  rw [deltaByte, BitVec.toInt_ofInt]
  exact Int.bmod_eq_of_le (by omega) (by omega)

/-- Settles O52: three bytes by evaluation, and the read-back because a delta byte is read as its two's complement
number. -/
theorem decimalDeltasReadBack : Obligations.DecimalDeltasReadBack := by
  refine ⟨rfl, rfl, rfl, fun n h0 h1 => ?_⟩
  rw [delta_eq_toInt, toInt_deltaByte n h0 h1]

end Sys2Proof.Machine

/-! SUPPORT. Proofs of the statements about the reassembler (`40_reassembly.md`): what each byte operation does, the
byte step as a whole, the bundle inside RX2, and what the buffer and idle time can reach. -/

namespace Sys2Proof.Machine

/-! ## Written before read (`40_reassembly.md` R65) -/

/-- The ports show nothing of the buffer, so agreement on what is written is agreement on the ports. -/
theorem outputs_eq_of_agreeWritten {s t : State} (h : s.AgreeWritten t) : s.outputs = t.outputs := by
  obtain ⟨-, hx, hy, hbtn, heoi, -⟩ := h
  simp only [State.outputs, hx, hy, hbtn, heoi]

theorem takePins_agreeWritten {s t : State} (h : s.AgreeWritten t) : s.takePins.AgreeWritten t.takePins := by
  simpa only [State.AgreeWritten, takePins_cyc, takePins_buf, takePins_x, takePins_y, takePins_btn, takePins_eoi]
    using h

/-- A byte moves position and buttons by what they were and by the buffer entries below the phase alone. -/
theorem acceptByte_congr (b : Byte) {s t : State} (hcyc : s.cyc = t.cyc) (hx : s.x = t.x) (hy : s.y = t.y)
    (hbtn : s.btn = t.btn) (hbuf : ∀ i : Phase, i.index < s.cyc.index → s.buf.read i = t.buf.read i) :
    (acceptByte b s).x = (acceptByte b t).x ∧ (acceptByte b s).y = (acceptByte b t).y ∧
      (acceptByte b s).btn = (acceptByte b t).btn := by
  cases hc : s.cyc with
  | phase0 =>
    rw [acceptByte_phase0 b s hc, acceptByte_phase0 b t (hcyc ▸ hc)]
    exact ⟨hx, hy, hbtn⟩
  | phase1 =>
    rw [acceptByte_phase1 b s hc, acceptByte_phase1 b t (hcyc ▸ hc)]
    exact ⟨hx, hy, hbtn⟩
  | phase2 =>
    rw [hc] at hbuf
    have h0 : s.buf.b0 = t.buf.b0 := hbuf .phase0 (by decide)
    have h1 : s.buf.b1 = t.buf.b1 := hbuf .phase1 (by decide)
    rw [acceptByte_phase2 b s hc, acceptByte_phase2 b t (hcyc ▸ hc)]
    simp only [completed_x, completed_y, completed_btn, State.readX, State.readY, hx, hy, h0, h1, and_self]

/-- An entry below the next phase was below the phase before, or is the entry just written. -/
theorem index_lt_of_lt_next {i c : Phase} (h : i.index < c.next.index) (hne : i ≠ c) : i.index < c.index := by
  have hidx : i.index ≠ c.index := fun heq => hne (index_injective heq)
  rw [index_next] at h
  omega

/-- A byte is written where it is later read, so accepting it keeps agreement on what is written. -/
theorem acceptByte_agreeWritten (b : Byte) {s t : State} (h : s.AgreeWritten t) :
    (acceptByte b s).AgreeWritten (acceptByte b t) := by
  obtain ⟨hcyc, hx, hy, hbtn, -, hbuf⟩ := h
  obtain ⟨hx', hy', hbtn'⟩ := acceptByte_congr b hcyc hx hy hbtn hbuf
  obtain ⟨scyc, sbuf, seoi, -⟩ := acceptByte_common b s
  obtain ⟨tcyc, tbuf, teoi, -⟩ := acceptByte_common b t
  refine ⟨by rw [scyc, tcyc, hcyc], hx', hy', hbtn', by rw [seoi, teoi], fun i hi => ?_⟩
  rw [scyc] at hi
  rw [sbuf, tbuf, ← hcyc, read_write, read_write]
  split
  case isTrue => rfl
  case isFalse hne => exact hbuf i (index_lt_of_lt_next hi hne)

/-- Every event keeps agreement on what is written. -/
theorem applyEvent_agreeWritten (e : Event) {s t : State} (h : s.AgreeWritten t) :
    (applyEvent e s).AgreeWritten (applyEvent e t) := by
  cases e with
  | reset => exact ⟨rfl, rfl, rfl, rfl, rfl, fun _ _ => rfl⟩
  | idle =>
    obtain ⟨hcyc, hx, hy, hbtn, -, hbuf⟩ := h
    exact ⟨hcyc, hx, hy, hbtn, rfl, hbuf⟩
  | byte b => exact acceptByte_agreeWritten b h

/-- Settles O56: both steps apply the same event, which keeps the agreement. -/
theorem stepKeepsAgreementOnWhatIsWritten : Obligations.StepKeepsAgreementOnWhatIsWritten := by
  intro s t s' t' h hpins hs ht
  have hevent : s.event = t.event := congrArg Pins.event hpins
  have h' : s'.AgreeWritten t' := by
    rw [step_next hs, step_next ht, hevent]
    exact applyEvent_agreeWritten t.event (takePins_agreeWritten h)
  exact ⟨h', outputs_eq_of_agreeWritten h'⟩

/-! ## Runs as sequences of events (`40_reassembly.md` R66) -/

/-- Where a sequence of events leads. -/
def applyEvents (es : List Event) (s : State) : State := es.foldl (fun t e => applyEvent e t) s

@[simp] theorem applyEvents_nil (s : State) : applyEvents [] s = s := rfl

@[simp] theorem applyEvents_cons (e : Event) (es : List Event) (s : State) :
    applyEvents (e :: es) s = applyEvents es (applyEvent e s) := rfl

/-- A run applies the events of its cycles in order, and uses up its list. -/
theorem runPins_eq_applyEvents (ps : List Pins) (s : State) :
    runPins ps s = .next { applyEvents (ps.map Pins.event) s with input := [] } := by
  induction ps generalizing s with
  | nil => exact runPins_nil s
  | cons p ps ih => rw [runPins_cons_applyEvent, ih, List.map_cons, applyEvents_cons]

theorem applyEvents_agreeWritten (es : List Event) {s t : State} (h : s.AgreeWritten t) :
    (applyEvents es s).AgreeWritten (applyEvents es t) := by
  induction es generalizing s t with
  | nil => exact h
  | cons e es ih => exact ih (applyEvent_agreeWritten e h)

/-- Settles O36: the run of a stimulus is its events, each of which keeps the agreement. -/
theorem unwrittenBufferEntriesReachNoOutput : Obligations.UnwrittenBufferEntriesReachNoOutput := by
  intro ps s t h
  have h' := applyEvents_agreeWritten (ps.map Pins.event) h
  exact ⟨_, _, runPins_eq_applyEvents ps s, runPins_eq_applyEvents ps t, h', outputs_eq_of_agreeWritten h'⟩

/-! ## Idle time (`40_reassembly.md` R66) -/

/-- `EOI` is read by no event. -/
theorem applyEvent_agreeButEoi (e : Event) {s t : State} (h : s.AgreeButEoi t) :
    (applyEvent e s).AgreeButEoi (applyEvent e t) := by
  cases e with
  | reset => exact ⟨rfl, rfl, rfl, rfl, rfl⟩
  | idle => exact h
  | byte b =>
    obtain ⟨hcyc, hbuf, hx, hy, hbtn⟩ := h
    obtain ⟨scyc, sbuf, -⟩ := acceptByte_common b s
    obtain ⟨tcyc, tbuf, -⟩ := acceptByte_common b t
    simp only [applyEvent_byte]
    exact ⟨by rw [scyc, tcyc, hcyc], by rw [sbuf, tbuf, hbuf, hcyc],
      acceptByte_congr b hcyc hx hy hbtn fun i _ => by rw [hbuf]⟩

/-- An Idle event can be left out of a sequence: it moves `EOI` alone. -/
theorem applyEvents_agreeButEoi_filter (es : List Event) {s t : State} (h : s.AgreeButEoi t) :
    (applyEvents es s).AgreeButEoi (applyEvents (es.filter (fun e => e != .idle)) t) := by
  induction es generalizing s t with
  | nil => exact h
  | cons e es ih =>
    by_cases he : e = .idle
    · have hdrop : (e :: es).filter (fun e => e != .idle) = es.filter (fun e => e != .idle) :=
        List.filter_cons_of_neg (by simp [he])
      have hidle : (applyEvent e s).AgreeButEoi t := by rw [he]; exact h
      rw [hdrop]
      exact ih hidle
    · rw [List.filter_cons_of_pos (by simpa using he)]
      exact ih (applyEvent_agreeButEoi e h)

/-- A run leads where its stripped sequence of events leads, but for `EOI`. -/
theorem runPins_agreeButEoi_stripIdle (ps : List Pins) (s : State) :
    ∃ t : State, runPins ps s = .next t ∧ t.AgreeButEoi (applyEvents (stripIdle ps) s) :=
  ⟨_, runPins_eq_applyEvents ps s, applyEvents_agreeButEoi_filter (ps.map Pins.event) ⟨rfl, rfl, rfl, rfl, rfl⟩⟩

/-- Settles O35: both runs lead where their common stripped sequence leads. -/
theorem idleTimeChangesNothingButEoi : Obligations.IdleTimeChangesNothingButEoi := by
  intro s ps qs hstrip
  obtain ⟨t, ht, tcyc, tbuf, tx, ty, tbtn⟩ := runPins_agreeButEoi_stripIdle ps s
  obtain ⟨u, hu, ucyc, ubuf, ux, uy, ubtn⟩ := runPins_agreeButEoi_stripIdle qs s
  rw [← hstrip] at ucyc ubuf ux uy ubtn
  exact ⟨t, u, ht, hu, tcyc.trans ucyc.symm, tbuf.trans ubuf.symm, tx.trans ux.symm, ty.trans uy.symm,
    tbtn.trans ubtn.symm⟩

/-! ## The byte operations in their phases (`40_reassembly.md` R61, R62, R63) -/

/-- What the operation of a Byte event does in the phase the state is in. -/
theorem exec_decodeEvent_byte (b : Byte) (s : State) :
    exec (decodeEvent s.cyc (.byte b)) s = .next (acceptByte b s) := exec_decodeEvent (.byte b) s

/-- Settles O1: accepting a byte in phase 0. -/
theorem rx0FilesTheStatusByte : Obligations.Rx0FilesTheStatusByte := by
  intro b s hs
  have hrx0 : decodeEvent s.cyc (.byte b) = .rx0 b := by rw [hs]; rfl
  refine ⟨hrx0, ?_⟩
  rw [← hrx0, exec_decodeEvent_byte, acceptByte_phase0 b s hs]

/-- Settles O2: accepting a byte in phase 1. -/
theorem rx1FilesTheDeltaXByte : Obligations.Rx1FilesTheDeltaXByte := by
  intro b s hs
  have hrx1 : decodeEvent s.cyc (.byte b) = .rx1 b := by rw [hs]; rfl
  refine ⟨hrx1, ?_⟩
  rw [← hrx1, exec_decodeEvent_byte, acceptByte_phase1 b s hs]

/-- The completed `X` by the status byte's bits (`40_reassembly.md` R60). -/
theorem completed_readX_eq (b : Byte) (s : State) :
    (completed b s).readX = max 0 (min 784 (s.readX +
      (if s.buf.b0.getLsbD 6 then s.buf.b1.toInt.tdiv 2
       else if s.buf.b0.getLsbD 4 then s.buf.b1.toInt else -s.buf.b1.toInt))) := by
  rw [completed_readX, clamp_eq_max_min _ 784 (by decide), stepX_eq]

/-- The completed `Y` by the status byte's bits (`40_reassembly.md` R60). -/
theorem completed_readY_eq (b : Byte) (s : State) :
    (completed b s).readY = max 0 (min 576 (s.readY +
      (if s.buf.b0.getLsbD 7 then -(b.toInt.tdiv 2)
       else if s.buf.b0.getLsbD 5 then b.toInt else -b.toInt))) := by
  rw [completed_readY, clamp_eq_max_min _ 576 (by decide), stepY_eq]

/-- A flag of a completed packet is the complement of its status bit (`40_reassembly.md` R63). -/
theorem completed_btn_getLsbD (b : Byte) (s : State) (i : Nat) (hi : i < 3) :
    (completed b s).btn.getLsbD i = !s.buf.b0.getLsbD i := by
  simp only [completed_btn, BitVec.getLsbD_not, BitVec.getLsbD_extractLsb', hi, decide_true, Bool.true_and,
    Nat.zero_add]

/-- Settles O3: in phase 2 a byte completes the packet. -/
theorem rx2CompletesThePacket : Obligations.Rx2CompletesThePacket := by
  intro b s hs
  exact ⟨by rw [hs]; rfl, completed b s, execRx2_eq_completed b s, rfl, rfl, completed_readX_eq b s,
    completed_readY_eq b s, completed_btn_getLsbD b s, rfl⟩

/-- Settles O5: NOPI is the Idle event's operation in each phase, and clears `EOI`. -/
theorem nopiClearsEoiOnly : Obligations.NopiClearsEoiOnly := by
  intro c s
  refine ⟨?_, congrArg Host.Outcome.next (clearEoi_eq s)⟩
  cases c <;> rfl

/-- Settles O53: RX0 and RX1 write `CYC` without reading it, and so does a completion. -/
theorem byteOperationsDoNotReadThePhase : Obligations.ByteOperationsDoNotReadThePhase := by
  intro b s c
  have hcompleted : completed b { s with cyc := c } = completed b s := rfl
  refine ⟨rfl, rfl, ?_⟩
  calc exec (.rx2 b) { s with cyc := c }
      = .next (completed b { s with cyc := c }) := execRx2_eq_completed b _
    _ = .next (completed b s) := by rw [hcompleted]
    _ = exec (.rx2 b) s := (execRx2_eq_completed b s).symm

/-! ## The byte step as a whole (`40_reassembly.md` R60) -/

/-- The event of a listed cycle that presents a byte without reset. -/
theorem event_of_listed_byte {s : State} {p : Pins} {rest : List Pins} (hin : s.input = p :: rest)
    (hrst : p.rst = false) (hvalid : p.rxValid = true) : s.event = .byte p.rxData := by
  simp only [State.event, State.pins, hin, Pins.event, hrst, hvalid, Bool.false_eq_true, if_false, if_true]

/-- Settles O4: the step accepts the byte, and each phase has its own lemma on where that leads. -/
theorem byteStepFollowsTheProcedure : Obligations.ByteStepFollowsTheProcedure := by
  intro s p rest hin hrst hvalid
  have hstep : step s = .next (acceptByte p.rxData s.takePins) := by
    rw [step_eq_applyEvent, event_of_listed_byte hin hrst hvalid, applyEvent_byte]
  obtain ⟨-, hbuf, heoi, -⟩ := acceptByte_common p.rxData s.takePins
  refine ⟨_, hstep, heoi, fun i => ?_, fun hs => ?_, fun hs => ?_, fun hs => ?_⟩
  · rw [hbuf, takePins_buf, takePins_cyc, read_write]
  · rw [acceptByte_phase0 _ _ ((takePins_cyc s).trans hs)]
    exact ⟨rfl, takePins_x s, takePins_y s, takePins_btn s⟩
  · rw [acceptByte_phase1 _ _ ((takePins_cyc s).trans hs)]
    exact ⟨rfl, takePins_x s, takePins_y s, takePins_btn s⟩
  · rw [acceptByte_phase2 _ _ ((takePins_cyc s).trans hs), ← takePins_readX s, ← takePins_readY s]
    exact ⟨rfl, completed_readX_eq _ _, completed_readY_eq _ _, completed_btn _ _⟩

/-! ## The bundle inside RX2 (`40_reassembly.md` R63, R64) -/

theorem exec_decodeXSlot (p : PacketWord) :
    exec (decodeXSlot p) = execXSlot (xSelect (packetStatus p)) (packetDX p) := by
  unfold decodeXSlot
  cases xSelect (packetStatus p) <;> rfl

theorem exec_decodeYSlot (p : PacketWord) :
    exec (decodeYSlot p) = execYSlot (ySelect (packetStatus p)) (packetDY p) := by
  unfold decodeYSlot
  cases ySelect (packetStatus p) <;> rfl

/-- A completion runs the decoded bundle of the buffered packet: it reads delta-Y after the X slot, which keeps the
buffer. -/
theorem completePacket_eq_execAll (s : State) :
    completePacket s = execAll (decode (.packet (packPacket s.buf.b0 s.buf.b1 s.buf.b2))) s := by
  simp only [completePacket, decode, decodePacket, execAll, exec_decodeXSlot, exec_decodeYSlot, packetStatus_pack,
    packetDX_pack, packetDY_pack, execXSlot_eq, execYSlot_eq, seq_next]
  rfl

/-- Settles O20: RX2 files the byte, completes the packet then buffered, and signals. -/
theorem rx2PerformsItsBundle : Obligations.Rx2PerformsItsBundle := by
  intro b s
  calc exec (.rx2 b) s
      = seq (completePacket (fileByte .phase2 b s)) (fun t => .next (signalEoi t.releaseWires)) := rfl
    _ = seq (execAll (decode (.packet (packPacket s.buf.b0 s.buf.b1 b)))
            { s with cyc := .phase0, buf := { s.buf with b2 := b } })
          (fun t => .next { t with wires := Wires.idle, eoi := true }) := by
        rw [completePacket_eq_execAll, fileByte_eq]
        rfl

end Sys2Proof.Machine

/-! SUPPORT. Proofs of the statements about the delta decoder (`41_delta_decode.md`): the halving, the step each slot
operation drives, when a packet selects it, and what no slot operation touches. -/

namespace Sys2Proof.Machine

/-! ## Halving (`41_delta_decode.md` R72) -/

theorem tdiv2_of_nonneg {n : Int} (h : 0 ≤ n) : tdiv2 n = n / 2 := if_pos h

theorem tdiv2_of_neg {n : Int} (h : n < 0) : tdiv2 n = -((-n) / 2) := if_neg (by omega)

/-- The rule's second form: a negative number is moved up by one before it is floored. -/
theorem tdiv2_eq_floor (n : Int) : tdiv2 n = (n + if n < 0 then 1 else 0) / 2 := by
  by_cases h : n < 0
  · rw [tdiv2_of_neg h, if_pos h]
    omega
  · rw [tdiv2_of_nonneg (by omega), if_neg h, add_zero]

theorem tdiv2_two_mul (n : Int) : tdiv2 (2 * n) = n := by
  rw [tdiv2_eq_floor]
  split <;> omega

theorem tdiv2_ne_floor_iff (n : Int) : tdiv2 n ≠ n / 2 ↔ n < 0 ∧ n % 2 = 1 := by
  rw [tdiv2_eq_floor]
  split <;> omega

theorem tdiv2_range {n : Int} (h0 : -128 ≤ n) (h1 : n ≤ 127) : -64 ≤ tdiv2 n ∧ tdiv2 n ≤ 63 := by
  rw [tdiv2_eq_floor]
  split <;> omega

/-- Settles O43: the rule's first form is the definition; from its second form follow the range, the preimage `2 * n`,
and where it differs from flooring. -/
theorem halvingTruncatesTowardZero : Obligations.HalvingTruncatesTowardZero := fun n =>
  ⟨tdiv2_of_nonneg, tdiv2_of_neg, tdiv2_eq_floor n, tdiv2_neg n, tdiv2_range,
    fun h0 h1 => ⟨2 * n, by omega, by omega, tdiv2_two_mul n⟩, tdiv2_ne_floor_iff n⟩

/-! ## The step each slot operation drives (`41_delta_decode.md` R75 to R80) -/

theorem exec_xsub (dx : Byte) (s : State) : exec (.xsub dx) s = .next (s.driveSx (-dx.toInt)) := by
  rw [← delta_eq_toInt]
  rfl

theorem exec_xadd (dx : Byte) (s : State) : exec (.xadd dx) s = .next (s.driveSx dx.toInt) := by
  rw [← delta_eq_toInt]
  rfl

theorem exec_xovf (dx : Byte) (s : State) : exec (.xovf dx) s = .next (s.driveSx (dx.toInt.tdiv 2)) := by
  rw [← delta_eq_toInt, ← tdiv2_eq_tdiv]
  rfl

theorem exec_ysub (dy : Byte) (s : State) : exec (.ysub dy) s = .next (s.driveSy (-dy.toInt)) := by
  rw [← delta_eq_toInt]
  rfl

theorem exec_yadd (dy : Byte) (s : State) : exec (.yadd dy) s = .next (s.driveSy dy.toInt) := by
  rw [← delta_eq_toInt]
  rfl

theorem exec_yovf (dy : Byte) (s : State) : exec (.yovf dy) s = .next (s.driveSy (-(dy.toInt.tdiv 2))) := by
  rw [← delta_eq_toInt, ← tdiv2_eq_tdiv]
  rfl

/-- Behind an operation that drives `sx`, the accumulator forms the sum of `X` and that step. -/
theorem execAll_accx_of_driveSx {i : Instr} {s : State} {n : Int} (h : exec i s = .next (s.driveSx n)) :
    execAll [i, .accx] s = .next { s with wires := { s.wires with sx := n, xn := s.readX + n } } := by
  rw [execAll, h]
  rfl

/-- Behind an operation that drives `sy`, the accumulator forms the sum of `Y` and that step. -/
theorem execAll_accy_of_driveSy {i : Instr} {s : State} {n : Int} (h : exec i s = .next (s.driveSy n)) :
    execAll [i, .accy] s = .next { s with wires := { s.wires with sy := n, yn := s.readY + n } } := by
  rw [execAll, h]
  rfl

/-! ## When a packet performs a slot operation (`30_encoding.md` R52, R53) -/

theorem decodeXSlot_mem (p : PacketWord) : decodeXSlot p ∈ decode (.packet p) :=
  (mem_decode_packet _ p).mpr (.inl rfl)

theorem decodeYSlot_mem (p : PacketWord) : decodeYSlot p ∈ decode (.packet p) :=
  (mem_decode_packet _ p).mpr (.inr (.inl rfl))

/-- Without overflow, bit 4 chooses between adding and subtracting. -/
theorem decodeXSlot_of_noOverflow {p : PacketWord} (hXO : p.getLsbD 6 = false) :
    decodeXSlot p = if p.getLsbD 4 then .xadd (packetDX p) else .xsub (packetDX p) := by
  rw [decodeXSlot_eq, hXO]
  rfl

theorem decodeXSlot_of_overflow {p : PacketWord} (hXO : p.getLsbD 6 = true) : decodeXSlot p = .xovf (packetDX p) := by
  rw [decodeXSlot_eq, if_pos hXO]

/-- Without overflow, bit 5 chooses between adding and subtracting. -/
theorem decodeYSlot_of_noOverflow {p : PacketWord} (hYO : p.getLsbD 7 = false) :
    decodeYSlot p = if p.getLsbD 5 then .yadd (packetDY p) else .ysub (packetDY p) := by
  rw [decodeYSlot_eq, hYO]
  rfl

theorem decodeYSlot_of_overflow {p : PacketWord} (hYO : p.getLsbD 7 = true) : decodeYSlot p = .yovf (packetDY p) := by
  rw [decodeYSlot_eq, if_pos hYO]

/-! ## The six slot operations -/

/-- Settles O7: the step is `−dx`, and the packet's X slot is XSUB where bits 6 and 4 are clear. -/
theorem xsubSubtractsDeltaX : Obligations.XsubSubtractsDeltaX := by
  refine fun dx s => ⟨exec_xsub dx s, ?_, fun p hXO hXS => ?_⟩
  · rw [sub_eq_add_neg]
    exact execAll_accx_of_driveSx (exec_xsub dx s)
  · have hslot : decodeXSlot p = .xsub (packetDX p) := by rw [decodeXSlot_of_noOverflow hXO, hXS]; rfl
    exact hslot ▸ decodeXSlot_mem p

/-- Settles O8: the step is `dx`, and the packet's X slot is XADD where bit 6 is clear and bit 4 set. -/
theorem xaddAddsDeltaX : Obligations.XaddAddsDeltaX := by
  refine fun dx s => ⟨exec_xadd dx s, execAll_accx_of_driveSx (exec_xadd dx s), fun p hXO hXS => ?_⟩
  have hslot : decodeXSlot p = .xadd (packetDX p) := by rw [decodeXSlot_of_noOverflow hXO, if_pos hXS]
  exact hslot ▸ decodeXSlot_mem p

/-- Settles O9: the step is half of `dx`, and the packet's X slot is XOVF where bit 6 is set. -/
theorem xovfAddsHalfDeltaX : Obligations.XovfAddsHalfDeltaX := by
  refine fun dx s => ⟨exec_xovf dx s, execAll_accx_of_driveSx (exec_xovf dx s), fun p hXO => ?_⟩
  exact decodeXSlot_of_overflow hXO ▸ decodeXSlot_mem p

/-- Settles O10: the step is `−dy`, and the packet's Y slot is YSUB where bits 7 and 5 are clear. -/
theorem ysubSubtractsDeltaY : Obligations.YsubSubtractsDeltaY := by
  refine fun dy s => ⟨exec_ysub dy s, ?_, fun p hYO hYS => ?_⟩
  · rw [sub_eq_add_neg]
    exact execAll_accy_of_driveSy (exec_ysub dy s)
  · have hslot : decodeYSlot p = .ysub (packetDY p) := by rw [decodeYSlot_of_noOverflow hYO, hYS]; rfl
    exact hslot ▸ decodeYSlot_mem p

/-- Settles O11: the step is `dy`, and the packet's Y slot is YADD where bit 7 is clear and bit 5 set. -/
theorem yaddAddsDeltaY : Obligations.YaddAddsDeltaY := by
  refine fun dy s => ⟨exec_yadd dy s, execAll_accy_of_driveSy (exec_yadd dy s), fun p hYO hYS => ?_⟩
  have hslot : decodeYSlot p = .yadd (packetDY p) := by rw [decodeYSlot_of_noOverflow hYO, if_pos hYS]
  exact hslot ▸ decodeYSlot_mem p

/-- Settles O12: the step is minus half of `dy`, halving is odd, and the packet's Y slot is YOVF where bit 7 is set. -/
theorem yovfSubtractsHalfDeltaY : Obligations.YovfSubtractsHalfDeltaY := by
  refine fun dy s => ⟨exec_yovf dy s, (Int.neg_tdiv dy.toInt 2).symm, ?_, fun p hYO => ?_⟩
  · rw [sub_eq_add_neg]
    exact execAll_accy_of_driveSy (exec_yovf dy s)
  · exact decodeYSlot_of_overflow hYO ▸ decodeYSlot_mem p

/-! ## The operations side by side (`41_delta_decode.md` R81, R82) -/

/-- Settles O44: the steps are those of the six operations, and without overflow one bit chooses on either axis. -/
theorem overflowSignsAreOpposite : Obligations.OverflowSignsAreOpposite := fun d s _ =>
  ⟨⟨_, _, exec_xovf d s, exec_yovf d s, rfl, rfl⟩, ⟨_, _, exec_xsub d s, exec_ysub d s, rfl, rfl⟩,
    ⟨_, _, exec_xadd d s, exec_yadd d s, rfl, rfl⟩, decodeXSlot_of_noOverflow, decodeYSlot_of_noOverflow⟩

/-- Settles O45: a delta lies in [−128, 127] and its half in [−64, 63]; the negated steps have the mirrored ranges. -/
theorem stepsStayInTheirRanges : Obligations.StepsStayInTheirRanges := by
  intro d s
  obtain ⟨hlo, hhi⟩ := toInt_byte_range d
  obtain ⟨hlo2, hhi2⟩ := tdiv2_byte_range d
  rw [tdiv2_eq_tdiv] at hlo2 hhi2
  have hneg : -127 ≤ -d.toInt ∧ -d.toInt ≤ 128 := by omega
  have hneg2 : -63 ≤ -(d.toInt.tdiv 2) ∧ -(d.toInt.tdiv 2) ≤ 64 := by omega
  exact ⟨⟨_, exec_xsub d s, hneg⟩, ⟨_, exec_xadd d s, hlo, hhi⟩, ⟨_, exec_xovf d s, hlo2, hhi2⟩,
    ⟨_, exec_ysub d s, hneg⟩, ⟨_, exec_yadd d s, hlo, hhi⟩, ⟨_, exec_yovf d s, hneg2⟩⟩

/-! ## What the operations touch (`41_delta_decode.md` R70, R83) -/

/-- The slot operations and the additions drive wires. -/
theorem exec_wireOperation (d : Byte) (i : Instr) (s : State)
    (hi : i = .xsub d ∨ i = .xadd d ∨ i = .xovf d ∨ i = .ysub d ∨ i = .yadd d ∨ i = .yovf d ∨ i = .accx ∨ i = .accy) :
    ∃ w : Wires, exec i s = .next { s with wires := w } := by
  rcases hi with rfl | rfl | rfl | rfl | rfl | rfl | rfl | rfl
  · exact ⟨_, exec_xsub d s⟩
  · exact ⟨_, exec_xadd d s⟩
  · exact ⟨_, exec_xovf d s⟩
  · exact ⟨_, exec_ysub d s⟩
  · exact ⟨_, exec_yadd d s⟩
  · exact ⟨_, exec_yovf d s⟩
  · exact ⟨_, rfl⟩
  · exact ⟨_, rfl⟩

/-- Settles O33: the one state these operations answer differs in the wires at most. -/
theorem slotOperationsChangeNoRegister : Obligations.SlotOperationsChangeNoRegister := by
  intro d i s t hi h
  obtain ⟨w, hw⟩ := exec_wireOperation d i s hi
  have ht : { s with wires := w } = t := Host.Outcome.next.inj (hw.symm.trans h)
  rw [← ht]

theorem completed_x_congr (b c : Byte) {s t : State} (hx : s.x = t.x) (hdx : s.buf.b1 = t.buf.b1)
    (hXO : s.buf.b0.getLsbD 6 = t.buf.b0.getLsbD 6) (hXS : s.buf.b0.getLsbD 4 = t.buf.b0.getLsbD 4) :
    (completed b s).x = (completed c t).x := by
  rw [completed_x, completed_x, State.readX, State.readX, hx, hdx, stepX_congr _ hXO fun _ => hXS]

theorem completed_y_congr (b : Byte) {s t : State} (hy : s.y = t.y)
    (hYO : s.buf.b0.getLsbD 7 = t.buf.b0.getLsbD 7) (hYS : s.buf.b0.getLsbD 5 = t.buf.b0.getLsbD 5) :
    (completed b s).y = (completed b t).y := by
  rw [completed_y, completed_y, State.readY, State.readY, hy, stepY_congr _ hYO fun _ => hYS]

/-- Settles O46: a completion forms each position from its own register, delta byte and two status bits. -/
theorem axesAreIndependent : Obligations.AxesAreIndependent := by
  refine fun b c s t => ⟨_, _, execRx2_eq_completed b s, execRx2_eq_completed c t, completed_x_congr b c, ?_⟩
  rintro hy rfl hYO hYS
  exact completed_y_congr b hy hYO hYS

end Sys2Proof.Machine

/-! SUPPORT. Proofs of the statements about the saturating accumulator (`42_accumulate_clamp.md`): the exact sums, the
clamped stores, and what saturation keeps and forgets. -/

namespace Sys2Proof.Machine

/-! ## The clamp from 0 (`42_accumulate_clamp.md` R87, R91) -/

theorem clamp_of_nonpos {n hi : Int} (h : 0 ≤ hi) (hn : n ≤ 0) : clamp n 0 hi = 0 := by
  rw [clamp_eq_max_min n hi h]
  omega

/-- Only the upper bound can cut a number that is not negative. -/
theorem clamp_of_nonneg {n hi : Int} (h : 0 ≤ hi) (hn : 0 ≤ n) : clamp n 0 hi = min n hi := by
  rw [clamp_eq_max_min n hi h]
  omega

theorem clamp_of_ge {n hi : Int} (h : 0 ≤ hi) (hn : hi ≤ n) : clamp n 0 hi = hi := by
  rw [clamp_of_nonneg h (h.trans hn), min_eq_right hn]

theorem clamp_of_inRange {n hi : Int} (h0 : 0 ≤ n) (h1 : n ≤ hi) : clamp n 0 hi = n := by
  rw [clamp_of_nonneg (h0.trans h1) h0, min_eq_left h1]

/-- The three cases of the rule, which exclude each other. -/
theorem clamp_cases (n : Int) {hi : Int} (h : 0 ≤ hi) :
    (n < 0 → clamp n 0 hi = 0) ∧ (hi < n → clamp n 0 hi = hi) ∧ (0 ≤ n → n ≤ hi → clamp n 0 hi = n) :=
  ⟨fun hn => clamp_of_nonpos h hn.le, fun hn => clamp_of_ge h hn.le, clamp_of_inRange⟩

theorem clamp_mono {m n hi : Int} (h : 0 ≤ hi) (hmn : m ≤ n) : clamp m 0 hi ≤ clamp n 0 hi := by
  rw [clamp_eq_max_min m hi h, clamp_eq_max_min n hi h]
  exact max_le_max_left 0 (min_le_min_left hi hmn)

theorem clamp_idempotent (n : Int) {hi : Int} (h : 0 ≤ hi) : clamp (clamp n 0 hi) 0 hi = clamp n 0 hi :=
  clamp_of_inRange (clamp_range n hi h).1 (clamp_range n hi h).2

/-! ## What each operation answers (`42_accumulate_clamp.md` R85 to R89) -/

theorem exec_accx (s : State) : exec .accx s = .next (s.driveXn (s.readX + s.wires.sx)) := rfl

theorem exec_accy (s : State) : exec .accy s = .next (s.driveYn (s.readY + s.wires.sy)) := rfl

/-- The clamped position fits the register, so `X` reads it back whole. -/
theorem exec_clampx (s : State) :
    ∃ t : State, exec .clampx s = .next t ∧ t = { s with x := t.x } ∧ t.readX = clamp s.wires.xn 0 784 :=
  ⟨_, rfl, rfl, toInt_ofInt_clamp _ 784 (by decide) (by decide)⟩

/-- The clamped position fits the register, so `Y` reads it back whole. -/
theorem exec_clampy (s : State) :
    ∃ t : State, exec .clampy s = .next t ∧ t = { s with y := t.y } ∧ t.readY = clamp s.wires.yn 0 576 :=
  ⟨_, rfl, rfl, toInt_ofInt_clamp _ 576 (by decide) (by decide)⟩

/-- The horizontal accumulator as a whole: the sum, then its clamp, is the new `X`. -/
theorem execAll_accx_clampx (s : State) :
    ∃ t : State, execAll [.accx, .clampx] s = .next t ∧ t.readX = clamp (s.readX + s.wires.sx) 0 784 := by
  obtain ⟨t, ht, -, htx⟩ := exec_clampx (s.driveXn (s.readX + s.wires.sx))
  exact ⟨t, by simp only [execAll, exec_accx, seq_next, ht], htx⟩

/-- The vertical accumulator as a whole: the sum, then its clamp, is the new `Y`. -/
theorem execAll_accy_clampy (s : State) :
    ∃ t : State, execAll [.accy, .clampy] s = .next t ∧ t.readY = clamp (s.readY + s.wires.sy) 0 576 := by
  obtain ⟨t, ht, -, hty⟩ := exec_clampy (s.driveYn (s.readY + s.wires.sy))
  exact ⟨t, by simp only [execAll, exec_accy, seq_next, ht], hty⟩

/-- The accumulator's four operations follow the two slots in the bundle of every packet (`30_encoding.md` R54). -/
theorem accumulator_mem_decode (p : PacketWord) {i : Instr} (hi : i ∈ [Instr.accx, .accy, .clampx, .clampy]) :
    i ∈ decode (.packet p) := by
  obtain ⟨x, y, hp, -⟩ := everyPacketPerformsTheFixedOperations p
  rw [hp]
  exact .tail x (.tail y (List.mem_append_left [_] hi))

/-! ## The additions (`42_accumulate_clamp.md` R85, R86) -/

/-- Settles O13: `X` lies in [0, 784], so a step of at most 128 leads at most 128 beyond it. -/
theorem accxFormsTheExactSum : Obligations.AccxFormsTheExactSum := by
  refine fun s => ⟨exec_accx s, fun p => accumulator_mem_decode p (by decide), fun hview hlo hhi => ?_⟩
  obtain ⟨hx0, hx1, -, -⟩ := hview
  exact ⟨_, exec_accx s, add_le_add hx0 hlo, add_le_add hx1 hhi⟩

/-- Settles O14: `Y` lies in [0, 576], so a step of at most 128 leads at most 128 beyond it. -/
theorem accyFormsTheExactSum : Obligations.AccyFormsTheExactSum := by
  refine fun s => ⟨exec_accy s, fun p => accumulator_mem_decode p (by decide), fun hview hlo hhi => ?_⟩
  obtain ⟨-, -, hy0, hy1⟩ := hview
  exact ⟨_, exec_accy s, add_le_add hy0 hlo, add_le_add hy1 hhi⟩

/-! ## The clamped stores (`42_accumulate_clamp.md` R88, R89) -/

/-- From the lower bound a step back leaves `X` there, however far it leads. -/
theorem execAll_accx_clampx_at_zero {s : State} (hx : s.readX = 0) (hsx : s.wires.sx ≤ 0) :
    ∃ t : State, execAll [.accx, .clampx] s = .next t ∧ t.readX = 0 := by
  obtain ⟨t, ht, htx⟩ := execAll_accx_clampx s
  exact ⟨t, ht, htx.trans (clamp_of_nonpos (by decide) (by omega))⟩

/-- Settles O15: the cases are those of the clamp, which `X` holds whole; at either bound the sum lies on the bound or
beyond it. -/
theorem clampxSaturatesX : Obligations.ClampxSaturatesX := by
  intro s
  refine ⟨?cases, fun p => accumulator_mem_decode p (by decide), execAll_accx_clampx_at_zero, fun hx hsx => ?upper⟩
  case cases =>
    obtain ⟨t, ht, hframe, htx⟩ := exec_clampx s
    exact ⟨t, ht, hframe, htx ▸ clamp_cases s.wires.xn (by decide)⟩
  case upper =>
    obtain ⟨t, ht, htx⟩ := execAll_accx_clampx s
    exact ⟨t, ht, htx.trans (clamp_of_ge (by decide) (by omega))⟩

/-- Settles O16: the cases are those of the clamp, which `Y` holds whole; at either bound the sum lies on the bound or
beyond it. -/
theorem clampySaturatesY : Obligations.ClampySaturatesY := by
  intro s
  refine ⟨?cases, fun p => accumulator_mem_decode p (by decide), fun hy hsy => ?lower, fun hy hsy => ?upper⟩
  case cases =>
    obtain ⟨t, ht, hframe, hty⟩ := exec_clampy s
    exact ⟨t, ht, hframe, hty ▸ clamp_cases s.wires.yn (by decide)⟩
  case lower =>
    obtain ⟨t, ht, hty⟩ := execAll_accy_clampy s
    exact ⟨t, ht, hty.trans (clamp_of_nonpos (by decide) (by omega))⟩
  case upper =>
    obtain ⟨t, ht, hty⟩ := execAll_accy_clampy s
    exact ⟨t, ht, hty.trans (clamp_of_ge (by decide) (by omega))⟩

/-! ## Saturation (`42_accumulate_clamp.md` R91) -/

/-- From 0 a step forward counts in full up to the bound: nothing of an earlier excess is left to make up for. -/
theorem execAll_accx_clampx_from_zero {s : State} (hx : s.readX = 0) (hsx : 0 < s.wires.sx) :
    ∃ t : State, execAll [.accx, .clampx] s = .next t ∧ t.readX = min s.wires.sx 784 := by
  obtain ⟨t, ht, htx⟩ := execAll_accx_clampx s
  rw [hx, zero_add, clamp_of_nonneg (by decide) hsx.le] at htx
  exact ⟨t, ht, htx⟩

/-- From 5, a step of −50 and one of 30 end at 30, where their sum would end at 0. -/
theorem clamp_of_steps_ne_clamp_of_sum : clamp (clamp (5 + -50) 0 784 + 30) 0 784 ≠ clamp (5 + -50 + 30) 0 784 := by
  decide

/-- Settles O49: on both axes the new position is the clamp of the sum, and the clamp is monotone. -/
theorem saturationIsMonotoneAndForgets : Obligations.SaturationIsMonotoneAndForgets := by
  refine ⟨fun s t hpos hstep => ?monoX, fun s t hpos hstep => ?monoY, fun s hx hsx => ?forgets,
    fun n _ => clamp_idempotent n, 5, -50, 30, clamp_of_steps_ne_clamp_of_sum⟩
  case monoX =>
    obtain ⟨s', hs', hsx'⟩ := execAll_accx_clampx s
    obtain ⟨t', ht', htx'⟩ := execAll_accx_clampx t
    refine ⟨s', t', hs', ht', ?_⟩
    rw [hsx', htx']
    exact clamp_mono (by decide) (add_le_add hpos hstep)
  case monoY =>
    obtain ⟨s', hs', hsy'⟩ := execAll_accy_clampy s
    obtain ⟨t', ht', hty'⟩ := execAll_accy_clampy t
    refine ⟨s', t', hs', ht', ?_⟩
    rw [hsy', hty']
    exact clamp_mono (by decide) (add_le_add hpos hstep)
  case forgets =>
    obtain ⟨t, ht, htx⟩ := execAll_accx_clampx_at_zero hx hsx
    exact ⟨t, ht, htx, fun k hk => execAll_accx_clampx_from_zero (s := t.driveSx k) htx hk⟩

end Sys2Proof.Machine

/-! SUPPORT. Proofs of the statement about the button decoder (`43_buttons.md`): the flags, what BTN answers, and which
packets perform it. -/

namespace Sys2Proof.Machine

/-- A flag is set exactly where its status bit is clear (`43_buttons.md` R95). -/
theorem buttonFlags_getLsbD (low : BitVec 3) {i : Nat} (hi : i < 3) :
    (buttonFlags low).getLsbD i = !low.getLsbD i := by
  rw [buttonFlags, BitVec.getLsbD_not, decide_eq_true hi, Bool.true_and]

theorem exec_btn (low : BitVec 3) (s : State) : exec (.btn low) s = .next (s.setBtn (buttonFlags low)) := rfl

/-- BTN is in the bundle of every packet, on status bits 2:0 (`30_encoding.md` R54). -/
theorem btn_mem_decode (p : PacketWord) : Instr.btn (p.extractLsb' 0 3) ∈ decode (.packet p) := by
  rw [mem_decode_packet, packetStatus_buttons]
  simp only [or_true]

/-- Settles O17: the one register BTN writes takes the flags, each the negation of its status bit. -/
theorem btnFlagsAreTheClearBits : Obligations.BtnFlagsAreTheClearBits := fun low s =>
  ⟨⟨_, exec_btn low s, rfl, buttonFlags_getLsbD low (by decide), buttonFlags_getLsbD low (by decide),
    buttonFlags_getLsbD low (by decide)⟩, btn_mem_decode⟩

end Sys2Proof.Machine

/-! SUPPORT. Proofs of the statements about the exceptions (`60_exceptions.md`): the priority of the events, the sample
a step takes, the end-of-interrupt, and the masked line. -/

namespace Sys2Proof.Machine

/-! ## The event of a cycle (`60_exceptions.md` R103) -/

/-- Settles O32: the two tests of the event, in their order. -/
theorem pinsChooseTheEventByPriority : Obligations.PinsChooseTheEventByPriority := by
  intro p
  refine ⟨fun hrst => ?_, fun hrst hvalid => ?_, fun hrst hvalid => ?_⟩
  · rw [Pins.event, if_pos hrst]
  · rw [Pins.event, hrst, if_neg Bool.false_ne_true, if_pos hvalid]
  · rw [Pins.event, hrst, hvalid, if_neg Bool.false_ne_true, if_neg Bool.false_ne_true]

/-! ## The sample of a step (`60_exceptions.md` R103; log 1) -/

theorem event_of_listed {s : State} {p : Pins} {rest : List Pins} (h : s.input = p :: rest) : s.event = p.event := by
  rw [State.event, State.pins, h]

theorem event_of_unlisted {s : State} (h : s.input = []) :
    s.event = Pins.event ⟨Config.freeRst s.drawn, Config.freeRxValid s.drawn, Config.freeRxData s.drawn⟩ := by
  rw [State.event, State.pins, h]

/-- The operation is chosen before the sample is taken, and performed after. -/
theorem step_eq_exec (s : State) : step s = exec (decodeEvent s.cyc s.event) s.takePins := rfl

/-- Settles O21: the event and the state with its sample taken, for a listed cycle and for free pins. -/
theorem stepRunsTheDecodedOperation : Obligations.StepRunsTheDecodedOperation := by
  refine fun s => ⟨fun p rest hin => ?_, fun hin => ?_⟩
  · rw [step_eq_exec, event_of_listed hin, takePins_cons s p rest hin]
  · rw [step_eq_exec, event_of_unlisted hin, takePins_nil s hin]

/-- Taking a sample: the list loses its first entry, and only an empty list draws a free value. -/
theorem takePins_input_drawn (s : State) :
    s.takePins.input = s.input.tail ∧ s.takePins.drawn = if s.input = [] then s.drawn + 1 else s.drawn := by
  cases hin : s.input with
  | nil =>
    rw [takePins_nil s hin, if_pos rfl]
    exact ⟨hin, rfl⟩
  | cons p rest =>
    rw [takePins_cons s p rest hin, if_neg (List.cons_ne_nil p rest)]
    exact ⟨rfl, rfl⟩

/-- No event draws a free sample; only taking the pins does. -/
theorem applyEvent_drawn (e : Event) (s : State) : (applyEvent e s).drawn = s.drawn := by
  cases e with
  | reset => rfl
  | idle => rfl
  | byte b =>
    obtain ⟨-, -, -, -, hdrawn⟩ := acceptByte_common b s
    exact hdrawn

/-- Settles O55: the event leaves the pins to come as taking the sample left them. -/
theorem everyStepTakesOneSampleOfThePins : Obligations.EveryStepTakesOneSampleOfThePins := by
  intro s t h
  rw [step_next h, applyEvent_input, applyEvent_drawn]
  exact takePins_input_drawn s

/-! ## The end-of-interrupt (`60_exceptions.md` R106, R107) -/

theorem isByte_iff (p : Pins) : p.isByte = true ↔ ∃ b : Byte, p.event = .byte b := by
  cases he : p.event <;> simp [Pins.isByte, he]

/-- A byte raises `EOI`; a reset and an idle cycle clear it. -/
theorem applyEvent_eoi (p : Pins) (s : State) : (applyEvent p.event s).eoi = p.isByte := by
  cases he : p.event with
  | reset => simp [Pins.isByte, he, State.reset]
  | idle => simp [Pins.isByte, he]
  | byte b =>
    obtain ⟨-, -, heoi, -⟩ := acceptByte_common b s
    simp [Pins.isByte, he, heoi]

/-- Settles O57: the step applies the event of its pins, and that event alone fixes `EOI`. -/
theorem stepSetsEoiExactlyForAByte : Obligations.StepSetsEoiExactlyForAByte := by
  intro s t h
  have heoi : t.eoi = s.pins.isByte := by rw [step_next h]; exact applyEvent_eoi s.pins s.takePins
  rw [heoi]
  exact isByte_iff s.pins

/-- Along a stimulus `EOI` repeats, one step later, which cycles carry a byte. -/
theorem trace_map_eoi (ps : List Pins) (s : State) :
    (trace ps.length { s with input := ps }).map (fun t => t.eoi) = ps.map Pins.isByte := by
  induction ps generalizing s with
  | nil => rfl
  | cons p ps ih => rw [List.length_cons, trace_cons, List.map_cons, List.map_cons, applyEvent_eoi, ih]

/-- Settles O34: `EOI` along the trace is the list of which cycles carry a byte, so both count the same. -/
theorem endOfInterruptCountsTheBytes : Obligations.EndOfInterruptCountsTheBytes := by
  intro ps s
  have heoi := trace_map_eoi ps s
  refine ⟨heoi, ?_⟩
  calc ((trace ps.length { s with input := ps }).filter (fun t => t.outputs.eoi)).length
      = ((trace ps.length { s with input := ps }).map (fun t => t.eoi)).countP id := by
        rw [List.countP_map, List.countP_eq_length_filter]; rfl
    _ = (ps.map Pins.isByte).countP id := by rw [heoi]
    _ = (ps.filter Pins.isByte).length := by
        rw [List.countP_map, List.countP_eq_length_filter, Function.id_comp]

/-! ## The masked line (`60_exceptions.md` R119) -/

/-- Once `EOI` is 0, an idle cycle changes nothing. -/
theorem applyEvent_idle_of_eoi {s : State} (h : s.eoi = false) : applyEvent .idle s = s := by
  rw [applyEvent_idle, ← h]

/-- Once `EOI` is 0, idle cycles only use up the list. -/
theorem runPins_idle_of_eoi {ps : List Pins} {s : State} (hps : ∀ p ∈ ps, p.event = .idle) (h : s.eoi = false) :
    runPins ps s = .next { s with input := [] } := by
  induction ps with
  | nil => exact runPins_nil s
  | cons p ps ih =>
    obtain ⟨hp, hps⟩ := List.forall_mem_cons.mp hps
    rw [runPins_cons_applyEvent, hp, applyEvent_idle_of_eoi h, ih hps]

/-- Settles O41: the first idle cycle clears `EOI`, and the others change nothing. -/
theorem maskedLineFreezesTheState : Obligations.MaskedLineFreezesTheState := by
  intro ps s hne hps
  cases ps with
  | nil => exact absurd rfl hne
  | cons p ps =>
    obtain ⟨hp, hps⟩ := List.forall_mem_cons.mp hps
    rw [runPins_cons_applyEvent, hp, applyEvent_idle, runPins_idle_of_eoi hps rfl]

end Sys2Proof.Machine

/-! SUPPORT. Proofs of the statements about reset and hazards (`70_reset_and_hazards.md`): the values RST loads, what a
reset cycle forgets, and that no run stops. -/

namespace Sys2Proof.Machine

/-! ## The reset step (`70_reset_and_hazards.md` R122) -/

/-- RST is the reset state, with only the model's own record of the pins carried over (log 1). -/
theorem exec_rst (s : State) : exec .rst s = .next { State.reset with input := s.input, drawn := s.drawn } := rfl

/-- A Reset event performs the same operation whatever the phase. -/
theorem decodeEvent_reset (c : Phase) : decodeEvent c .reset = .rst := by
  cases c <;> rfl

/-- Settles O6: RST answers the reset state's registers, and reads of its state only the two fields that it keeps. -/
theorem rstLoadsTheResetValues : Obligations.RstLoadsTheResetValues := by
  obtain ⟨-, -, -, -, hx, hy, hbtn, heoi, hwires, -⟩ := resetStateHoldsTheResetValues
  intro c s
  refine ⟨decodeEvent_reset c, _, exec_rst s, ?cyc, ?buf, hx, hy, hbtn, heoi, hwires, ?input, ?drawn, exec_rst _⟩
  all_goals rfl

/-! ## A reset cycle in a run (`70_reset_and_hazards.md` R122, R123, R139) -/

/-- Settles O40: `rst` wins over the other pins, the Reset event keeps of the state only the pins to come and the draw
counter, and the run replaces the former. -/
theorem resetForgetsThePast : Obligations.ResetForgetsThePast := by
  intro s p ps hrst
  obtain ⟨hevent, -⟩ := pinsChooseTheEventByPriority p
  rw [runPins_cons_applyEvent, hevent hrst, applyEvent_reset]
  exact runPins_with_input ps s.input { State.reset with drawn := s.drawn }

/-! ## No run stops (`70_reset_and_hazards.md` R138) -/

/-- Settles O42: by induction on the number of steps, each of which answers the state its event leads to. -/
theorem everyRunGoesOn : Obligations.EveryRunGoesOn := by
  intro n
  induction n with
  | zero => exact fun s => ⟨s, rfl⟩
  | succ n ih =>
    intro s
    rw [State.RunsOn, run_succ]
    exact ih (applyEvent s.event s.takePins)

end Sys2Proof.Machine

/-! SUPPORT. Proofs of the statements about codes (`30_encoding.md` sections 2 to 4): the encoder's round trip, six
words written out, and which raw codes are rejected. -/

namespace Sys2Proof.Machine

/-! ## Raw codes (log 12) -/

theorem toCode_of_badLength (c : Phase) {r : RawCode} (h : r.lengthOk = false) :
    r.toCode c = .error (.badLength r.nbits) := by
  rw [RawCode.toCode, h]
  rfl

theorem toCode_of_badValue (c : Phase) {r : RawCode} (hlen : r.lengthOk = true) (hval : r.valueOk = false) :
    r.toCode c = .error (.badValue r.value) := by
  rw [RawCode.toCode, hlen, hval]
  rfl

/-- A well-formed raw code stands for the code its length tells. -/
theorem toCode_of_wellFormed (c : Phase) {r : RawCode} (h : r.wellFormed = true) :
    r.toCode c = .ok (if r.nbits == 0 then .event c .idle
      else if r.nbits == Config.byteW then .event c (.byte (BitVec.ofNat 8 r.value))
      else .packet (BitVec.ofNat 24 r.value)) := by
  obtain ⟨hlen, hval⟩ := Bool.and_eq_true_iff.mp h
  rw [RawCode.toCode, hlen, hval, apply_ite Except.ok, apply_ite Except.ok]
  rfl

theorem wellFormed_byteBits (b : Byte) : RawCode.wellFormed ⟨8, b.toNat⟩ = true := decide_eq_true b.isLt

theorem wellFormed_packetBits (p : PacketWord) : RawCode.wellFormed ⟨24, p.toNat⟩ = true := decide_eq_true p.isLt

theorem toCode_byteBits (c : Phase) (b : Byte) : RawCode.toCode c ⟨8, b.toNat⟩ = .ok (.event c (.byte b)) := by
  simp [toCode_of_wellFormed c (wellFormed_byteBits b), Config.byteW]

theorem toCode_packetBits (c : Phase) (p : PacketWord) : RawCode.toCode c ⟨24, p.toNat⟩ = .ok (.packet p) := by
  simp [toCode_of_wellFormed c (wellFormed_packetBits p), Config.byteW]

theorem decodeRaw_of_error {c : Phase} {r : RawCode} {e : DecodeError} (h : r.toCode c = .error e) :
    decodeRaw c r = .error e := by
  rw [decodeRaw, h]

theorem decodeRaw_of_ok {c : Phase} {r : RawCode} {code : Code} (h : r.toCode c = .ok code) :
    decodeRaw c r = .ok (decode code) := by
  rw [decodeRaw, h]

/-- Settles O24: the two checks stand before everything else, and what passes them is a code, whose list is never
empty. -/
theorem onlyIllFormedRawCodesAreRejected : Obligations.OnlyIllFormedRawCodesAreRejected := by
  intro c r
  exact ⟨fun hlen => decodeRaw_of_error (toCode_of_badLength c hlen),
    fun hlen hval => decodeRaw_of_error (toCode_of_badValue c hlen hval),
    fun hwf => ⟨_, decodeRaw_of_ok (toCode_of_wellFormed c hwf), decode_ne_nil _⟩⟩

/-! ## Words written out (`30_encoding.md` R48, R50) -/

/-- Settles O22: a byte's operation is its phase's, and the decoder computes the bundle of each of the three words. -/
theorem writtenWordsDecodeToTheirOperations : Obligations.WrittenWordsDecodeToTheirOperations := by
  refine ⟨rfl, rfl, rfl, ?subtractions, ?additions, ?overflows⟩
  all_goals decide

/-! ## The encoder (`30_encoding.md` section 3) -/

/-- The per-instruction family, for all sixteen: a packet code falls under its own operation's row. -/
theorem rowMatch_statement (i : Instr) : Laws.RowMatch.Statement i :=
  match i with
  | .rx0 b => Laws.RowMatch.rx0 b
  | .rx1 b => Laws.RowMatch.rx1 b
  | .rx2 b => Laws.RowMatch.rx2 b
  | .nopi => Laws.RowMatch.nopi
  | .rst => Laws.RowMatch.rst
  | .xsub dx => Laws.RowMatch.xsub dx
  | .xadd dx => Laws.RowMatch.xadd dx
  | .xovf dx => Laws.RowMatch.xovf dx
  | .ysub dy => Laws.RowMatch.ysub dy
  | .yadd dy => Laws.RowMatch.yadd dy
  | .yovf dy => Laws.RowMatch.yovf dy
  | .accx => Laws.RowMatch.accx
  | .accy => Laws.RowMatch.accy
  | .clampx => Laws.RowMatch.clampx
  | .clampy => Laws.RowMatch.clampy
  | .btn low => Laws.RowMatch.btn low

/-- A row's match and mask, and its operand fields, taken apart. -/
theorem packetMatchesRow_iff {p m k : PacketWord} {i : Instr} (hrow : packetRow i = some (m, k)) :
    packetMatchesRow p i = true ↔ p &&& k = m ∧ packetOperandsAre p i = true := by
  rw [packetMatchesRow, hrow, Bool.and_eq_true, beq_iff_eq]

/-- Of a slot operation's row: its mask holds and its one operand field is the operand. -/
theorem slotRow_of_packetMatchesRow {p m k : PacketWord} {i : Instr} {field d : Byte}
    (hrow : packetRow i = some (m, k)) (hfield : packetOperandsAre p i = (field == d))
    (h : packetMatchesRow p i = true) : p &&& k = m ∧ field = d := by
  rwa [packetMatchesRow_iff hrow, hfield, beq_iff_eq] at h

/-- A packet's bundle holds every operation whose row the packet falls under (`30_encoding.md` R52, R53, R54). -/
theorem mem_decode_of_packetMatchesRow {p : PacketWord} {i : Instr} (h : packetMatchesRow p i = true) :
    i ∈ decode (.packet p) := by
  cases i with
  | xsub d =>
    obtain ⟨xsub, -⟩ := slotSelectionIsTheTable p d
    exact xsub.mpr (slotRow_of_packetMatchesRow rfl rfl h)
  | xadd d =>
    obtain ⟨-, xadd, -⟩ := slotSelectionIsTheTable p d
    exact xadd.mpr (slotRow_of_packetMatchesRow rfl rfl h)
  | xovf d =>
    obtain ⟨-, -, xovf, -⟩ := slotSelectionIsTheTable p d
    exact xovf.mpr (slotRow_of_packetMatchesRow rfl rfl h)
  | ysub d =>
    obtain ⟨-, -, -, ysub, -⟩ := slotSelectionIsTheTable p d
    exact ysub.mpr (slotRow_of_packetMatchesRow rfl rfl h)
  | yadd d =>
    obtain ⟨-, -, -, -, yadd, -⟩ := slotSelectionIsTheTable p d
    exact yadd.mpr (slotRow_of_packetMatchesRow rfl rfl h)
  | yovf d =>
    obtain ⟨-, -, -, -, -, yovf⟩ := slotSelectionIsTheTable p d
    exact yovf.mpr (slotRow_of_packetMatchesRow rfl rfl h)
  | btn low =>
    obtain ⟨-, hlow⟩ := (packetMatchesRow_iff rfl).mp h
    rw [← beq_iff_eq.mp hlow, packetStatus_buttons]
    exact btn_mem_decode p
  | accx | accy | clampx | clampy => exact accumulator_mem_decode p (by decide)
  | rx0 _ | rx1 _ | rx2 _ | nopi | rst => cases h

/-- An event code is decoded by the phase it was given. -/
theorem decodeEvent_of_encode {i : Instr} {c : Phase} {e : Event} (h : encode i = .event c e) :
    decodeEvent c e = i := by
  cases i <;> cases h <;> rfl

theorem mem_decode_encode (i : Instr) : i ∈ decode (encode i) := by
  cases h : encode i with
  | event c e => rw [decode_event, decodeEvent_of_encode h, List.mem_singleton]
  | packet p =>
    obtain ⟨-, hrow⟩ := rowMatch_statement i
    exact mem_decode_of_packetMatchesRow (hrow p h)

/-- The raw bits of a code are well formed, and read in the code's phase they are the code (log 12, log 13). -/
theorem toCode_of_encodeRaw {i : Instr} {r : RawCode} {c : Phase} (h : encodeRaw i = some r)
    (hc : ∀ (d : Phase) (e : Event), encode i = .event d e → d = c) :
    r.wellFormed = true ∧ r.toCode c = .ok (encode i) := by
  rw [encodeRaw] at h
  cases hcode : encode i with
  | packet p =>
    rw [hcode] at h
    cases h
    exact ⟨wellFormed_packetBits p, toCode_packetBits c p⟩
  | event d e =>
    obtain rfl := hc d e hcode
    rw [hcode] at h
    cases e with
    | reset => cases h
    | idle =>
      cases h
      exact ⟨rfl, rfl⟩
    | byte b =>
      cases h
      exact ⟨wellFormed_byteBits b, toCode_byteBits d b⟩

/-- Settles O23: an event code is decoded by its phase, a packet code falls under the operation's row, and the raw bits
stand for the code itself. -/
theorem decodeOfEncodeGivesTheOperationBack : Obligations.DecodeOfEncodeGivesTheOperationBack := by
  intro i
  refine ⟨mem_decode_encode i, fun c e h => ?_, fun r c hr hc => ?_⟩
  · rw [h, decode_event, decodeEvent_of_encode h]
  · obtain ⟨hwf, hcode⟩ := toCode_of_encodeRaw hr hc
    exact ⟨hwf, decode (encode i), decodeRaw_of_ok hcode, mem_decode_encode i⟩

end Sys2Proof.Machine
